-- ==== Sys2Proof/Word.lean ====
section
/-! DEFINITION. The widths of CORE's data (spec/00_scope.md R6, R8): every word is an unsigned 32-bit number, bit 31 the
most significant. Addition of words is `+` on `BitVec 32`, that is modulo 2^32 with the carry dropped (R11, R90). -/

namespace Sys2Proof

/-- R8: a word, 32 bits, unsigned. -/
abbrev Word := BitVec 32

/-- R161: a byte of a message, 8 bits. -/
abbrev Byte := BitVec 8

/-- R6, R52: a 512-bit block as it stands on the port `cmd_block`. -/
abbrev Block := BitVec 512

/-- R6: a block as sixteen words, word 0 first. -/
abbrev BlockWords := Vector Word 16

/-- R21, R22: eight words, for `H[0..7]` and for `a` to `h` = `v[0..7]`. -/
abbrev Words8 := Vector Word 8

/-- R23: the 64-word Message Schedule `W[0..63]`. -/
abbrev Schedule := Vector Word 64

/-- R33: the 256 bits of the port `digest`. -/
abbrev Digest := BitVec 256

/-- R71: a command word `{cmd_op, cmd_block}`. -/
abbrev CmdWord := BitVec 513

/-- R72: a sequencer word `{phase, t}`. -/
abbrev SeqWord := BitVec 9

end Sys2Proof
end

