-- ==== Sys2Proof/Machine/Phase.lean ====
section
/-! DEFINITION. The five values of the register `phase` (spec/10_state.md R26). Values 5, 6 and 7 have no name: they are
never taken (R28). -/

namespace Sys2Proof.Machine

/-- R26: no command in progress. -/
abbrev Phase.idle : BitVec 3 := 0

/-- R26: the next micro-operation is `UEXP` at `t`. -/
abbrev Phase.expand : BitVec 3 := 1

/-- R26: the next micro-operation is `UWINIT`. -/
abbrev Phase.winit : BitVec 3 := 2

/-- R26: the next micro-operation is `URND` at `t`. -/
abbrev Phase.round : BitVec 3 := 3

/-- R26: the next micro-operation is `UACC`. -/
abbrev Phase.acc : BitVec 3 := 4

end Sys2Proof.Machine
end

