-- ==== Sys2Proof/Syntax.lean ====
section
/-! DEFINITION. The instructions of CORE, one constructor per row of spec/opcode_table.json (spec/30_encoding.md R74): the
two commands the host issues and the four micro-operations the sequencer issues. -/

namespace Sys2Proof

/-- R70, R74: the six instructions with their operands (R73). -/
inductive Instr where
  /-- Command `INIT` (R111): no operand; the 512 block bits of its word are ignored (R75). -/
  | init
  /-- Command `COMPRESS block` (R112): the operand is the 512-bit block. -/
  | compress (block : Block)
  /-- Micro-operation `UEXP` (R131): the operand is the counter `t`, 16 to 63. -/
  | uexp (t : BitVec 6)
  /-- Micro-operation `UWINIT` (R141): no operand. -/
  | uwinit
  /-- Micro-operation `URND` (R142): the operand is the counter `t`, 0 to 63. -/
  | urnd (t : BitVec 6)
  /-- Micro-operation `UACC` (R151): no operand. -/
  | uacc
  deriving DecidableEq, Repr

end Sys2Proof
end

