-- ==== Sys2Proof/WellFormed.lean ====
section
/-! DEFINITION. The one condition the opcode table puts on an operand (spec/30_encoding.md R74, column "condition on
fields"): `UEXP` needs 16 <= t <= 63. Every block is a legal operand of `COMPRESS` (R75) and every `t` one of `URND`. -/

namespace Sys2Proof

/-- R74: an instruction the table has. -/
def Instr.wellFormed : Instr → Bool
  | .init => true
  | .compress _ => true
  | .uexp t => decide (16 ≤ t.toNat)
  | .uwinit => true
  | .urnd _ => true
  | .uacc => true

end Sys2Proof
end

