-- ==== Sys2Proof/Decode.lean ====
section
/-! DEFINITION. The decoder of both formats, then the encoder (spec/30_encoding.md R70 to R76). A command word needs one
bit; a sequencer word needs the field `phase` and, where the table fixes it, the field `t`. CORE stores no instruction in
any byte-addressed memory (spec/20_memory.md R50, R63), so the decoder reads the formats' own words, not bytes. -/

namespace Sys2Proof

/-- The two formats of R70: a command word from the port, or the sequencer word. -/
inductive Encoded where
  /-- Format `CMD`, 513 bits (R71). -/
  | cmd (w : CmdWord)
  /-- Format `UOP`, 9 bits (R72). -/
  | seq (w : SeqWord)
  deriving DecidableEq, Repr

/-- Why a sequencer word selects no micro-operation (R72, R76). No command word is rejected (R75). -/
inductive DecodeReject where
  /-- `seq` = 0: `IDLE`, the sequencer performs no micro-operation (R72). -/
  | idleWord
  /-- `phase` = `IDLE` with `t` not 0: unreachable (R76). -/
  | idleCounterNotZero
  /-- `phase` = `EXPAND` with `t` < 16: unreachable (R76). -/
  | expandCounterBelow16
  /-- `phase` = `WINIT` with `t` not 0: unreachable (R76). -/
  | winitCounterNotZero
  /-- `phase` = `ACC` with `t` not 0: unreachable (R76). -/
  | accCounterNotZero
  /-- `phase` = 5, 6 or 7: unreachable (R76). -/
  | unusedPhase
  deriving DecidableEq, Repr

/-- R71: the field `op`, bit [512]. -/
def cmdOpOf (w : CmdWord) : BitVec 1 := w.extractLsb' 512 1

/-- R71: the field `block`, bits [511:0]. -/
def cmdBlockOf (w : CmdWord) : Block := w.extractLsb' 0 512

/-- R72: the field `phase`, bits [8:6]. -/
def seqPhaseOf (w : SeqWord) : BitVec 3 := w.extractLsb' 6 3

/-- R72: the field `t`, bits [5:0]. -/
def seqCounterOf (w : SeqWord) : BitVec 6 := w.extractLsb' 0 6

/-- R74, R75: `op` = 0 is `INIT`, whatever the block bits; `op` = 1 is `COMPRESS`. The port carries the two fields apart
(spec/10_state.md R31). -/
def decodePort (op : BitVec 1) (block : Block) : Instr :=
  if op = 0 then .init else .compress block

/-- R71, R74: the command decoder on a whole command word. -/
def decodeCmd (w : CmdWord) : Instr := decodePort (cmdOpOf w) (cmdBlockOf w)

/-- R74, R76: the micro-operation a sequencer word selects, or why it selects none. -/
def decodeSeq (w : SeqWord) : Except DecodeReject Instr :=
  let p := seqPhaseOf w
  let t := seqCounterOf w
  if p = Machine.Phase.idle then
    if t = 0 then .error .idleWord else .error .idleCounterNotZero
  else if p = Machine.Phase.expand then
    if 16 ≤ t.toNat then .ok (.uexp t) else .error .expandCounterBelow16
  else if p = Machine.Phase.winit then
    if t = 0 then .ok .uwinit else .error .winitCounterNotZero
  else if p = Machine.Phase.round then
    .ok (.urnd t)
  else if p = Machine.Phase.acc then
    if t = 0 then .ok .uacc else .error .accCounterNotZero
  else
    .error .unusedPhase

/-- R70: the whole decoder, total on the words of both formats. -/
def decode : Encoded → Except DecodeReject Instr
  | .cmd w => .ok (decodeCmd w)
  | .seq w => decodeSeq w

/-- R71: a command word from its two fields. -/
def cmdWord (op : BitVec 1) (block : Block) : CmdWord := op ++ block

/-- R72: a sequencer word from its two fields. -/
def seqWord (phase : BitVec 3) (t : BitVec 6) : SeqWord := phase ++ t

/-- R74, R77: the word of an instruction; `INIT` in its canonical form, block bits all zero (R75). -/
def encode : Instr → Encoded
  | .init => .cmd (cmdWord 0 0)
  | .compress block => .cmd (cmdWord 1 block)
  | .uexp t => .seq (seqWord Machine.Phase.expand t)
  | .uwinit => .seq (seqWord Machine.Phase.winit 0)
  | .urnd t => .seq (seqWord Machine.Phase.round t)
  | .uacc => .seq (seqWord Machine.Phase.acc 0)

/-- The longest `UOP` word in whole bytes, in bits: the table's two widths, 9 and 513, are 16 and 520 in whole bytes. -/
def uopTableBits : Nat := 16

/-- The command word that the 513 lowest bits of `w` are, put together from `op` and the two halves of `block` (evaluating
it then needs no power of two above 2^256). -/
def cmdOfNat (w : Nat) : CmdWord := BitVec.ofNat 1 (w >>> 512) ++ BitVec.ofNat 256 (w >>> 256) ++ BitVec.ofNat 256 w

/-- The word that `w`, numbered as spec/opcode_table.json numbers it, is in the format `nbits` says; none where `w` has
a bit outside that format. -/
def tableWord (nbits w : Nat) : Option Encoded :=
  if nbits ≤ uopTableBits then
    if w < 2 ^ 9 then some (.seq (BitVec.ofNat 9 w)) else none
  else
    if w >>> 513 = 0 then some (.cmd (cmdOfNat w)) else none

/-- What the decoder reads from the word `w` of `nbits` bits. -/
def decodeTableWord (nbits w : Nat) : Option Instr :=
  match tableWord nbits w with
  | none => none
  | some e =>
    match decode e with
    | .ok i => some i
    | .error _ => none

end Sys2Proof
end

