-- ==== Sys2Proof/Machine/Operands.lean ====
section
/-! DEFINITION. The operand forms (spec/30_encoding.md R73): the sixteen words of a block by fixed bit positions
(spec/20_memory.md R52), and the index "`t` plus a constant" into the schedule (spec/42_schedule_expander.md R133). -/

namespace Sys2Proof.Machine

/-- R52: block word `j` is `cmd_block[511 - 32j : 480 - 32j]`. -/
def blockWord (b : Block) (j : Nat) : Word := b.extractLsb' (480 - 32 * j) 32

/-- R112: the words `M[0..15]` of a block. -/
def blockWords (b : Block) : BlockWords := Vector.ofFn fun j => blockWord b j.val

/-- R166: the block `{M[0], M[1], ..., M[15]}` of sixteen words. -/
def packBlock (m : BlockWords) : Block :=
  m[0] ++ m[1] ++ m[2] ++ m[3] ++ m[4] ++ m[5] ++ m[6] ++ m[7] ++
  m[8] ++ m[9] ++ m[10] ++ m[11] ++ m[12] ++ m[13] ++ m[14] ++ m[15]

/-- R27: the counter as an index, "used as it stands as a 6-bit unsigned index" (R73). -/
def counterIndex (t : BitVec 6) : Fin 64 := ⟨t.toNat, t.isLt⟩

/-- R133: the read of `W` at index `t - c`, an integer subtraction; its users have `c <= t` (R50). -/
def schedAt (W : Schedule) (t : Fin 64) (c : Nat) : Word :=
  W[t.val - c]'(Nat.lt_of_le_of_lt (Nat.sub_le t.val c) t.isLt)

/-- R112: the schedule after words 0 to 15 are loaded, words 16 to 63 as they were. -/
def loadBlock (W : Schedule) (m : BlockWords) : Schedule :=
  Vector.ofFn fun i => if h : i.val < 16 then m[i.val] else W[i.val]

end Sys2Proof.Machine
end

