-- ==== Sys2Proof/Machine/Primitives.lean ====
section
/-! DEFINITION. The functions on words that the micro-operations are built from (spec/40_primitives.md). `add32` (R90) is
`+` on `Word`. -/

namespace Sys2Proof.Machine

/-- R91: bit `i` of the result is bit `(i + n) mod 32` of `x`. -/
def rotr (x : Word) (n : Nat) : Word := x.rotateRight n

/-- R92: the logical right shift, zeros entering at bit 31. -/
def shr (x : Word) (n : Nat) : Word := x >>> n

/-- R93: `σ0`, used in the schedule. -/
def ssig0 (x : Word) : Word := rotr x 7 ^^^ rotr x 18 ^^^ shr x 3

/-- R94: `σ1`, used in the schedule. -/
def ssig1 (x : Word) : Word := rotr x 17 ^^^ rotr x 19 ^^^ shr x 10

/-- R95: `Σ0`, used in the round on `a`. -/
def bsig0 (x : Word) : Word := rotr x 2 ^^^ rotr x 13 ^^^ rotr x 22

/-- R96: `Σ1`, used in the round on `e`. -/
def bsig1 (x : Word) : Word := rotr x 6 ^^^ rotr x 11 ^^^ rotr x 25

/-- R97: choose, used in the round on `(e, f, g)`. -/
def ch (x y z : Word) : Word := (x &&& y) ^^^ (~~~x &&& z)

/-- R98: majority, used in the round on `(a, b, c)`. -/
def maj (x y z : Word) : Word := (x &&& y) ^^^ (x &&& z) ^^^ (y &&& z)

end Sys2Proof.Machine
end

