-- ==== Sys2Proof/Machine/Compress.lean ====
section
/-! DEFINITION. The data path of one micro-operation each as a function of words, and the per-block transition written
without the sequencer (spec/41_commands.md R113, spec/42_schedule_expander.md R132, spec/43_round_mixer.md R143). -/

namespace Sys2Proof.Machine

/-- R131: the word that `UEXP` at `t` writes. -/
def expandWord (W : Schedule) (t : Fin 64) : Word :=
  ssig1 (schedAt W t 2) + schedAt W t 7 + ssig0 (schedAt W t 15) + schedAt W t 16

/-- R142: the value `T1` of one round, from `a` to `h`, the round constant and the schedule word. -/
def roundT1 (v : Words8) (k w : Word) : Word := v[7] + bsig1 v[4] + ch v[4] v[5] v[6] + k + w

/-- R142: the value `T2` of one round. -/
def roundT2 (v : Words8) : Word := bsig0 v[0] + maj v[0] v[1] v[2]

/-- R143: one round on the eight working registers, all eight written at once. -/
def mixRound (v : Words8) (k w : Word) : Words8 :=
  #v[roundT1 v k w + roundT2 v, v[0], v[1], v[2], v[3] + roundT1 v k w, v[4], v[5], v[6]]

/-- R151: eight independent additions, no carry from one word to the next. -/
def addWords (x y : Words8) : Words8 := Vector.ofFn fun j => x[j] + y[j]

/-- R113 step 1: the schedule after `n` expansion steps, from index 16 on. -/
def expandSteps (W : Schedule) : Nat → Schedule
  | 0 => W
  | n + 1 =>
    let W' := expandSteps W n
    if h : n + 16 < 64 then W'.set (n + 16) (expandWord W' ⟨n + 16, h⟩) else W'

/-- R132: the 64-word schedule of a block (entries 16 to 63 of the array the block is loaded into are all overwritten). -/
def expand (m : BlockWords) : Schedule := expandSteps (loadBlock (Vector.replicate 64 0) m) 48

/-- R113 step 2: the working registers after the first `n` rounds. -/
def rounds (W : Schedule) (v : Words8) : Nat → Words8
  | 0 => v
  | n + 1 =>
    let v' := rounds W v n
    if h : n < 64 then mixRound v' (K ⟨n, h⟩) W[n] else v'

/-- R113: the per-block transition as a pure function. -/
def compress (hin : Words8) (m : BlockWords) : Words8 := addWords hin (rounds (expand m) hin 64)

/-- R119: the chaining value after a list of blocks. -/
def chain (hin : Words8) (blocks : List BlockWords) : Words8 := blocks.foldl compress hin

/-- R23: the next content of a 16-entry window of the schedule, holding `W[t+1..t+16]` after `W[t..t+15]`. -/
def windowNext (w : BlockWords) : BlockWords :=
  Vector.ofFn fun i => if h : i.val < 15 then w[i.val + 1] else ssig1 w[14] + w[9] + ssig0 w[1] + w[0]

/-- R23, R115: rounds that take `W[t]` from a 16-entry window and compute the next entry beside each round. -/
def windowRounds (m : BlockWords) (v : Words8) : Nat → BlockWords × Words8
  | 0 => (m, v)
  | n + 1 =>
    let p := windowRounds m v n
    (windowNext p.1, if h : n < 64 then mixRound p.2 (K ⟨n, h⟩) p.1[0] else p.2)

/-- R23, R115: the per-block transition of a build that keeps a window of 16 schedule entries. -/
def compressWindow (hin : Words8) (m : BlockWords) : Words8 := addWords hin (windowRounds m hin 64).2

end Sys2Proof.Machine
end

