-- ==== Sys2Proof/Config.lean ====
section
/-! DEFINITION. What is fixed for the machine (spec/00_scope.md R6: nothing is configurable) and the one value this model
chose (the word that the registers without a reset value hold at `State.reset`). The spec leaves no result open, so
there is no free value; `N_CORES` (R7) is the argument of `Machine.System`, and `T_UOP`, `T_ACCEPT` are not modelled
(R7, R211). -/

namespace Sys2Proof

/-- DESIGN CHOICE (notes/assumptions/1.md), unsafe: what each of `W[0..63]` and `a` to `h` holds in `State.reset`, where
spec/10_state.md R37 says "unspecified". -/
def Config.unspecifiedAtReset : Word := 0

/-- R170: the driver gives `pad` a meaning only for messages of fewer bits than this. -/
def Config.messageBitLimit : Nat := 2 ^ 64

/-- R120: micro-operations of one `COMPRESS` after its acceptance step, 48 + 1 + 64 + 1. -/
def Config.uopsPerCompress : Nat := 114

end Sys2Proof
end

