-- ==== Sys2Proof/Machine/State.lean ====
section
/-! DEFINITION. The state of one CORE (spec/10_state.md R20) beside the host that drives its ports (spec/45_host_driver.md
R172), the reasons a step can stop, and the state after reset (R37). -/

namespace Sys2Proof.Machine

/-- R31: the values on CORE's data and control inputs at one clock edge. -/
structure Pins where
  rst : Bool
  cmdValid : Bool
  cmdOp : BitVec 1
  cmdBlock : Block
  deriving DecidableEq, Repr

/-- The name `d` that a line `DIGEST -> d` or `HASH m -> d` gives its result (R78). -/
abbrev ResultName := List Char

/-- What the host saw on the two output ports at one clock edge (R57, R60), under the name it gave it. -/
structure Sample where
  name : ResultName
  /-- R32: `cmd_ready`. -/
  ready : Bool
  /-- R33: `digest`. -/
  digest : Digest
  deriving DecidableEq, Repr

/-- What the host still has to do, oldest first (R78, R172). These are moves of the host, not instructions of CORE. -/
inductive HostMove where
  /-- One clock edge with any values on the inputs (the liberties of R172). -/
  | drive (p : Pins)
  /-- `RESET`: one clock edge with `rst` = 1 (R78). -/
  | reset
  /-- Raise `cmd_valid` with this command word and hold it until it is accepted (R118, R206). -/
  | offer (w : CmdWord)
  /-- `WAIT`: nothing until `cmd_ready` = 1 (R78). -/
  | wait
  /-- `DIGEST -> d`: `WAIT`, then sample the port `digest` (R78). -/
  | digest (d : ResultName)
  /-- Sample `cmd_ready` and `digest` at this edge, whatever `cmd_ready` is (R172, first liberty; R57, R60). Between two
  `drive` moves it stands at any edge of a command; R78 has no line for it (notes/assumptions/22.md). -/
  | sample (d : ResultName)
  /-- `HASH m -> d` (R78, R168). -/
  | hash (m : List Byte) (d : ResultName)
  deriving DecidableEq, Repr

/-- The machine's state at a clock edge. -/
@[ext]
structure State where
  /-- R21: the Hash State `H[0..7]`. -/
  H : Vector Word 8
  /-- R22: the working registers `a` to `h` = `v[0..7]`. -/
  v : Vector Word 8
  /-- R23: the Message Schedule `W[0..63]`. -/
  W : Vector Word 64
  /-- R26: the sequencer phase, 3 bits. -/
  phase : BitVec 3
  /-- R27: the sequencer counter, 6 bits. -/
  t : BitVec 6
  /-- The host's moves still to come (outside CORE: R35 calls this stream "the program"). -/
  host : List HostMove
  /-- What the host sampled, oldest first (outside CORE: R57, R60; R173, the results of a run). -/
  samples : List Sample
  deriving DecidableEq, Repr

/-- What stops the machine as an error. CORE itself raises none (R180). -/
inductive Fault where
  /-- Raised by the host's Segmenter on a buffer whose length is no multiple of 64 bytes: the source's one fatal condition
  (R165, R171). Unreachable with a correct Padder; safe. -/
  | segmenterContractViolation
  deriving DecidableEq, Repr

/-- What this model gives no meaning (R193). -/
inductive Refusal where
  /-- An instruction without a meaning yet; raised by a refused arm of `exec` only. Safe. -/
  | notModelled (mnemonic : String)
  /-- Raised by `step` at an edge with `rst` = 0 in a state whose sequencer word is one of the 397 unreachable ones, and by
  `UEXP` on an operand below 16, whose word is one of them (R28, R76; 93_implementation_defined.md U5). Safe. -/
  | unreachableSequencerWord (w : SeqWord)
  /-- Raised by the host's driver on a message of 2^64 bits or more (R170, U1). Safe. -/
  | messageTooLong
  deriving DecidableEq, Repr

/-- R37: the state after reset: `H` = `IV`, `phase` = `IDLE`, `t` = 0. `W` and `a` to `h`, which R37 leaves unspecified,
hold the word of notes/assumptions/1.md; the host has nothing to do and has sampled nothing (notes/assumptions/2.md). -/
def State.reset : State where
  H := IV
  v := Vector.replicate 8 Config.unspecifiedAtReset
  W := Vector.replicate 64 Config.unspecifiedAtReset
  phase := Phase.idle
  t := 0
  host := []
  samples := []

end Sys2Proof.Machine
end

