-- ==== Sys2Proof/Machine/Ops.lean ====
section
/-! DEFINITION. The named operations that read and write State's registers, and reset. CORE takes no exception and has no
return from one (spec/60_exceptions.md R180, R184, R185); "The nearest event is reset" (R184), the one shared operation
`State.resetEdge`. CORE has no byte-addressed memory (spec/20_memory.md R50); its arrays are the fields `H`, `v`, `W`. -/

namespace Sys2Proof.Machine

/-- R21: all eight words of the Hash State written in one step. -/
def State.setH (s : State) (x : Words8) : State := { s with H := x }

/-- R22: all eight working registers written in one step. -/
def State.setV (s : State) (x : Words8) : State := { s with v := x }

/-- R23: the schedule written. -/
def State.setW (s : State) (x : Schedule) : State := { s with W := x }

/-- R131: one entry of the schedule written. -/
def State.writeW (s : State) (t : Fin 64) (x : Word) : State := s.setW (s.W.set t.val x t.isLt)

/-- R26, R27: both sequencer registers written. -/
def State.setSeq (s : State) (phase : BitVec 3) (t : BitVec 6) : State := { s with phase := phase, t := t }

/-- R26, R27: `t` written and `phase` left. -/
def State.setT (s : State) (t : BitVec 6) : State := { s with t := t }

/-- The host's remaining moves replaced. -/
def State.setHost (s : State) (ms : List HostMove) : State := { s with host := ms }

/-- R57, R78: samples of the output ports taken by the host, in order. -/
def State.addSamples (s : State) (xs : List Sample) : State := { s with samples := s.samples ++ xs }

/-- R72: the sequencer word `{phase, t}`. -/
def State.seq (s : State) : SeqWord := seqWord s.phase s.t

/-- R33: the port `digest`, `{H[0], ..., H[7]}`. -/
def digestOf (h : Words8) : Digest := h[0] ++ h[1] ++ h[2] ++ h[3] ++ h[4] ++ h[5] ++ h[6] ++ h[7]

/-- R33: `digest` is a wire from `H`. -/
def State.digest (s : State) : Digest := digestOf s.H

/-- R131, R142: the end of a looping micro-operation at `t`: at 63 the next phase with `t` = 0, else `t + 1`. -/
def State.advance (s : State) (t : BitVec 6) (nextPhase : BitVec 3) : State :=
  if t = 63 then s.setSeq nextPhase 0 else s.setT (t + 1)

/-- R200: what a clock edge with `rst` = 1 does, in any state; `W` and `a` to `h` are not written. -/
def State.resetEdge (s : State) : State := (s.setH IV).setSeq Phase.idle 0

end Sys2Proof.Machine
end

