-- ==== Sys2Proof/Machine/Accumulator.lean ====
section
/-! DEFINITION. The micro-operation `UACC` (spec/44_accumulator.md R151), at the edge at which the sequencer word selects
it. -/

namespace Sys2Proof.Machine

/-- R151 `UACC`. -/
def execUacc (s : State) : Host.Outcome State Fault Refusal :=
  .next ((s.setH (addWords s.H s.v)).setSeq Phase.idle 0)

end Sys2Proof.Machine
end

