-- ==== Sys2Proof/Machine/Flags.lean ====
section
/-! DEFINITION. CORE has no flags (spec/10_state.md R25): no carry, overflow, zero or condition code; the carry out of
every addition is dropped. "The only status CORE shows is the `cmd_ready` port" (R25), which is computed here. -/

namespace Sys2Proof.Machine

/-- R32: `cmd_ready` is 1 exactly when `phase` = `IDLE`; it is not a register. -/
def State.cmdReady (s : State) : Bool := decide (s.phase = Phase.idle)

end Sys2Proof.Machine
end

