-- ==== Sys2Proof/Machine/Commands.lean ====
section
/-! DEFINITION. The commands `INIT` and `COMPRESS` at an edge with `rst` = 0 at which the host offers them
(spec/41_commands.md R111, R112). Where `cmd_ready` = 0 the command is not accepted: "it waits" (R118), so it does nothing;
what else happens at that edge is the sequencer's own micro-operation, performed by `step`. -/

namespace Sys2Proof.Machine

/-- R111 `INIT`. -/
def execInit (s : State) : Host.Outcome State Fault Refusal :=
  if s.cmdReady then .next ((s.setH IV).setSeq Phase.idle 0) else .next s

/-- R112 `COMPRESS block`: the acceptance step. -/
def execCompress (block : Block) (s : State) : Host.Outcome State Fault Refusal :=
  if s.cmdReady then .next ((s.setW (loadBlock s.W (blockWords block))).setSeq Phase.expand 16) else .next s

end Sys2Proof.Machine
end

