-- ==== Sys2Proof/Machine/Expander.lean ====
section
/-! DEFINITION. The micro-operation `UEXP` (spec/42_schedule_expander.md R131), at the edge at which the sequencer word
selects it. -/

namespace Sys2Proof.Machine

/-- R131 `UEXP` at `t`. For `t` < 16 there is no such instruction (R76): its word is an unreachable one. -/
def execUexp (t : BitVec 6) (s : State) : Host.Outcome State Fault Refusal :=
  if 16 ≤ t.toNat then
    .next ((s.writeW (counterIndex t) (expandWord s.W (counterIndex t))).advance t Phase.winit)
  else
    .refused (.unreachableSequencerWord (seqWord Phase.expand t))

end Sys2Proof.Machine
end

