-- ==== Sys2Proof/Machine/Mixer.lean ====
section
/-! DEFINITION. The micro-operations `UWINIT` and `URND` (spec/43_round_mixer.md R141, R142), at the edge at which the
sequencer word selects them. -/

namespace Sys2Proof.Machine

/-- R141 `UWINIT`. -/
def execUwinit (s : State) : Host.Outcome State Fault Refusal :=
  .next ((s.setV s.H).setSeq Phase.round 0)

/-- R142 `URND` at `t`. -/
def execUrnd (t : BitVec 6) (s : State) : Host.Outcome State Fault Refusal :=
  .next ((s.setV (mixRound s.v (K (counterIndex t)) s.W[counterIndex t])).advance t Phase.acc)

end Sys2Proof.Machine
end

