-- ==== Sys2Proof/Machine/Dispatch.lean ====
section
/-! DEFINITION. One arm per instruction (spec/30_encoding.md R74). -/

namespace Sys2Proof.Machine

def exec (i : Instr) (s : State) : Host.Outcome State Fault Refusal :=
  match i with
  | .init => Sys2Proof.Machine.execInit s
  | .compress block => Sys2Proof.Machine.execCompress block s
  | .uexp t => Sys2Proof.Machine.execUexp t s
  | .uwinit => Sys2Proof.Machine.execUwinit s
  | .urnd t => Sys2Proof.Machine.execUrnd t s
  | .uacc => Sys2Proof.Machine.execUacc s

end Sys2Proof.Machine
end

