-- ==== Sys2Proof/Machine/HostDriver.lean ====
section
/-! DEFINITION. The host's pure stages (spec/45_host_driver.md): Padder, Segmenter, Serializer, and the function `hash`
they make with `compress`. None of them is part of CORE (spec/00_scope.md R4). -/

namespace Sys2Proof.Machine

/-- R162: the number `z` of `0` bits, from `r = l mod 512`. -/
def zeroBits (r : Nat) : Nat := if r ≤ 447 then 447 - r else 512 - r + 447

/-- R162: `l` as eight bytes, most significant first. -/
def lengthField (l : Nat) : List Byte := (List.range 8).map fun i => BitVec.ofNat 8 (l / 2 ^ (8 * (7 - i)))

/-- R163: the message, the byte `80`, `p` bytes `00` (from `z = 8p + 7`), the length field. -/
def padBytes (m : List Byte) : List Byte :=
  m ++ 0x80 :: (List.replicate (zeroBits (8 * m.length % 512) / 8) 0 ++ lengthField (8 * m.length))

/-- R162, R170: `pad(m)`; no meaning for a message of 2^64 bits or more. -/
def pad (m : List Byte) : Option (List Byte) :=
  if 8 * m.length < Config.messageBitLimit then some (padBytes m) else none

/-- R161: the bits of a byte, most significant first. -/
def byteBits (b : Byte) : List Bool := (List.range 8).map fun i => b.getMsbD i

/-- R161: a message as a string of bits. -/
def messageBits (m : List Byte) : List Bool := m.flatMap byteBits

/-- R162 in its own words, on bits: the original bits, a `1` bit, `z` `0` bits, `l` as a 64-bit big-endian number. -/
def padBits (bits : List Bool) : List Bool :=
  bits ++ true :: (List.replicate (zeroBits (bits.length % 512)) false ++
    (List.range 64).map fun i => (BitVec.ofNat 64 bits.length).getMsbD i)

/-- R165: word `j` of block `i`, four bytes big-endian (`getD`'s default is never taken: the buffer holds whole blocks). -/
def segmentWord (p : List Byte) (i j : Nat) : Word :=
  p.getD (64 * i + 4 * j) 0 ++ p.getD (64 * i + 4 * j + 1) 0 ++
  p.getD (64 * i + 4 * j + 2) 0 ++ p.getD (64 * i + 4 * j + 3) 0

/-- R165: the blocks of a buffer, or none: a contract violation, where the Segmenter "does not return". -/
def segmentBlocks (p : List Byte) : Option (List BlockWords) :=
  if p.length % 64 = 0 then
    some ((List.range (p.length / 64)).map fun i => Vector.ofFn fun j : Fin 16 => segmentWord p i j.val)
  else none

/-- R165, R168 step (1): the blocks of a message, or why there are none (R170, R171). -/
def blocksOf (m : List Byte) : Host.Outcome (List BlockWords) Fault Refusal :=
  match pad m with
  | none => .refused .messageTooLong
  | some p =>
    match segmentBlocks p with
    | none => .fault .segmenterContractViolation
    | some bs => .next bs

/-- R167: the 32 bytes of a Hash State; byte `4j + i` is `H[j][31 - 8i : 24 - 8i]`. -/
def serialize (h : Words8) : List Byte :=
  (List.finRange 8).flatMap fun j => (List.range 4).map fun i => h[j].extractLsb' (24 - 8 * i) 8

/-- R53: digest byte `k` is `digest[255 - 8k : 248 - 8k]`. -/
def digestBytes (d : Digest) : List Byte := (List.range 32).map fun k => d.extractLsb' (248 - 8 * k) 8

/-- R168: `hash(m)` as the pure function of its last sentence but three. -/
def hashMessage (m : List Byte) : Host.Outcome (List Byte) Fault Refusal :=
  match blocksOf m with
  | .next bs => .next (serialize (chain IV bs))
  | .fault f => .fault f
  | .refused r => .refused r

end Sys2Proof.Machine
end

