-- ==== Sys2Proof/Machine/HostAgent.lean ====
section
/-! DEFINITION. What the host does at one clock edge (spec/30_encoding.md R78, spec/45_host_driver.md R168, R172): from the
output ports `cmd_ready` and `digest` as the edges before left them and from its remaining moves, the values it puts on
CORE's inputs. `WAIT` and `DIGEST` with `cmd_ready` = 1 take no edge of their own (notes/assumptions/3.md), and a sample at any edge
never does (notes/assumptions/22.md). -/

namespace Sys2Proof.Machine

/-- R71: the command word on the port. -/
def Pins.cmd (p : Pins) : CmdWord := cmdWord p.cmdOp p.cmdBlock

/-- No reset and no command. -/
def Pins.quiet : Pins where
  rst := false
  cmdValid := false
  cmdOp := 0
  cmdBlock := 0

/-- R78 `RESET`: `rst` = 1 and no command. -/
def Pins.reset : Pins := { Pins.quiet with rst := true }

/-- R71: a command word offered. -/
def Pins.offering (w : CmdWord) : Pins where
  rst := false
  cmdValid := true
  cmdOp := cmdOpOf w
  cmdBlock := cmdBlockOf w

/-- The host's part of one edge. -/
structure Turn where
  /-- R31: the values it drives. -/
  pins : Pins
  /-- Its moves after this edge. -/
  rest : List HostMove
  /-- What it sampled before driving. -/
  samples : List Sample
  deriving DecidableEq, Repr

/-- R57: a sample taken before what the host does next at the same edge, which it leaves as it is. -/
def afterSample (x : Sample) : Host.Outcome Turn Fault Refusal → Host.Outcome Turn Fault Refusal
  | .next turn => .next { turn with samples := x :: turn.samples }
  | .fault f => .fault f
  | .refused e => .refused e

/-- The canonical word of `INIT` (R75). -/
def initWord : CmdWord := cmdWord 0 0

/-- R166: the command word of a block. -/
def compressWord (m : BlockWords) : CmdWord := cmdWord 1 (packBlock m)

/-- R168 steps (3) and (4): after `INIT`, each block in order, each after a `WAIT`, then `DIGEST`. -/
def hashMoves (bs : List BlockWords) (d : ResultName) : List HostMove :=
  bs.flatMap (fun b => [.wait, .offer (compressWord b)]) ++ [.digest d]

/-- The host's turn, given `cmd_ready` and `digest`. An offered command is accepted at this edge exactly when `cmd_ready`
= 1 (R31, since the host drives `rst` = 0 with it), and kept on offer otherwise (R118). A `sample` looks at the ports whatever
`cmd_ready` is (R57, R60, R172). -/
def hostTurn (ready : Bool) (dig : Digest) : List HostMove → Host.Outcome Turn Fault Refusal
  | [] => .next ⟨Pins.quiet, [], []⟩
  | .drive p :: r => .next ⟨p, r, []⟩
  | .reset :: r => .next ⟨Pins.reset, r, []⟩
  | .offer w :: r => .next ⟨Pins.offering w, if ready then r else .offer w :: r, []⟩
  | .wait :: r => if ready then hostTurn ready dig r else .next ⟨Pins.quiet, .wait :: r, []⟩
  | .digest d :: r =>
    if ready then afterSample ⟨d, ready, dig⟩ (hostTurn ready dig r) else .next ⟨Pins.quiet, .digest d :: r, []⟩
  | .sample d :: r => afterSample ⟨d, ready, dig⟩ (hostTurn ready dig r)
  | .hash m d :: r =>
    match blocksOf m with
    | .next bs =>
      if ready then .next ⟨Pins.offering initWord, hashMoves bs d ++ r, []⟩
      else .next ⟨Pins.quiet, .hash m d :: r, []⟩
    | .fault f => .fault f
    | .refused e => .refused e

end Sys2Proof.Machine
end

