-- ==== Sys2Proof/Machine/Edge.lean ====
section
/-! DEFINITION. One clock edge of CORE (spec/41_commands.md R116, spec/60_exceptions.md R183): reset first; else the
micro-operation the sequencer word selects; else, when idle, the command on offer. -/

namespace Sys2Proof.Machine

/-- R72, R116: what CORE performs at an edge with `rst` = 0: an instruction, nothing (idle and no command offered), or
none because the sequencer word is unreachable. While the sequencer is busy the command port is not looked at. -/
def select (q : SeqWord) (p : Pins) : Except DecodeReject (Option Instr) :=
  if q = 0 then
    if p.cmdValid then .ok (some (decodePort p.cmdOp p.cmdBlock)) else .ok none
  else
    match decodeSeq q with
    | .ok i => .ok (some i)
    | .error e => .error e

/-- R116: CORE's step at one clock edge. -/
def edge (p : Pins) (s : State) : Host.Outcome State Fault Refusal :=
  if p.rst then .next s.resetEdge
  else
    match select s.seq p with
    | .ok (some i) => exec i s
    | .ok none => .next s
    | .error _ => .refused (.unreachableSequencerWord s.seq)

/-- One clock edge of the host and CORE together: the host sees the ports as the edges before left them (D22), drives the
inputs, and CORE steps. -/
def stepEdge (s : State) : Host.Outcome State Fault Refusal :=
  match hostTurn s.cmdReady s.digest s.host with
  | .next turn => edge turn.pins ((s.setHost turn.rest).addSamples turn.samples)
  | .fault f => .fault f
  | .refused r => .refused r

/-- The state in which the coming edge performs exactly the instruction whose word is `w`: a sequencer word is put into
`phase` and `t` with the host driving no reset and no command; a command word is put on offer with CORE idle. -/
def placeTableWord (s : State) (nbits w : Nat) : State :=
  if nbits ≤ uopTableBits then
    (s.setSeq (seqPhaseOf (BitVec.ofNat 9 w)) (seqCounterOf (BitVec.ofNat 9 w))).setHost (.drive Pins.quiet :: s.host)
  else
    (s.setSeq Phase.idle 0).setHost (.offer (cmdOfNat w) :: s.host)

end Sys2Proof.Machine
end

