-- ==== Sys2Proof/Machine/Step.lean ====
section
/-! DEFINITION. The step of the machine: one clock edge (spec/41_commands.md R116, R120). -/

namespace Sys2Proof.Machine

/-- One clock edge. -/
def step : State → Host.Outcome State Fault Refusal := stepEdge

/-- `s` with the instruction of that word where the next step takes it from. -/
def State.withFetchWord (s : State) (nbits w : Nat) : State := placeTableWord s nbits w

end Sys2Proof.Machine
end

