-- ==== Sys2Proof/Machine/Assembler.lean ====
section
/-! DEFINITION. The notation for programs (spec/30_encoding.md R77, R78), as a total function from the text's characters
to the host's moves. The notation writes no wait: "Before each command the host waits for `cmd_ready = 1`" (R77), so each
command line gives a `wait` and an `offer`. -/

namespace Sys2Proof.Machine

/-- Why a line is no line of R77 or R78. -/
inductive AsmError where
  /-- The first word of the line is none of the mnemonics. -/
  | unknownMnemonic
  /-- `INIT`, `RESET` or `WAIT` with something after it, or another line with the wrong parts. -/
  | wrongOperands
  /-- A word of `COMPRESS` that is not exactly 8 hexadecimal digits, or not sixteen of them. -/
  | badBlockWord
  /-- A message of `HASH` that is neither a quoted ASCII string nor `hex:` and an even number of digits. -/
  | badMessage
  deriving DecidableEq, Repr

/-- R77: the value of a hexadecimal digit. -/
def hexDigit (c : Char) : Option Nat :=
  if '0'.toNat ≤ c.toNat ∧ c.toNat ≤ '9'.toNat then some (c.toNat - '0'.toNat)
  else if 'a'.toNat ≤ c.toNat ∧ c.toNat ≤ 'f'.toNat then some (c.toNat - 'a'.toNat + 10)
  else if 'A'.toNat ≤ c.toNat ∧ c.toNat ≤ 'F'.toNat then some (c.toNat - 'A'.toNat + 10)
  else none

/-- The hexadecimal number of some digits, most significant first. -/
def hexNumber (acc : Nat) : List Char → Option Nat
  | [] => some acc
  | c :: cs =>
    match hexDigit c with
    | some d => hexNumber (16 * acc + d) cs
    | none => none

/-- R77: one block word, exactly 8 hexadecimal digits. -/
def parseWord (cs : List Char) : Option Word :=
  if cs.length = 8 then (hexNumber 0 cs).map (BitVec.ofNat 32) else none

/-- R78: the bytes of an even number of hexadecimal digits. -/
def parseHexBytes : List Char → Option (List Byte)
  | [] => some []
  | [_] => none
  | c :: d :: cs =>
    match hexDigit c, hexDigit d, parseHexBytes cs with
    | some x, some y, some bs => some (BitVec.ofNat 8 (16 * x + y) :: bs)
    | _, _, _ => none

/-- R78: the bytes of a quoted ASCII string. -/
def parseAscii : List Char → Option (List Byte)
  | [] => some []
  | c :: cs =>
    match parseAscii cs with
    | some bs => if c.toNat < 128 then some (BitVec.ofNat 8 c.toNat :: bs) else none
    | none => none

/-- A line cut at its blanks and at its comment (R77); a quoted string is one piece, its quotes kept. `cur` is the piece
being read, reversed. Each quote character opens a quoted part or closes it; blanks and `;` inside one are kept, and one that
is never closed runs to the end of the line (the model's choices, notes/assumptions/17.md). -/
def pieces (quoted : Bool) (cur : List Char) : List Char → List (List Char)
  | [] => if cur = [] then [] else [cur.reverse]
  | c :: cs =>
    if quoted then pieces (c != '"') (c :: cur) cs
    else if c = ';' then if cur = [] then [] else [cur.reverse]
    else if c = ' ' ∨ c = '\t' ∨ c = '\r' then
      if cur = [] then pieces false [] cs else cur.reverse :: pieces false [] cs
    else pieces (c = '"') (c :: cur) cs

/-- R78: the message of `HASH`: a quoted ASCII string, or `hex:` and digits. How a quote character stands in a quoted string
the spec does not say; the model's choice (notes/assumptions/17.md): the string runs from the first character of the piece to
its last, which must be quotes, and a quote between them is a byte of the message, with no escape character. -/
def parseMessage : List Char → Option (List Byte)
  | 'h' :: 'e' :: 'x' :: ':' :: ds => parseHexBytes ds
  | '"' :: cs => if cs.getLast? = some '"' then parseAscii cs.dropLast else none
  | _ => none

/-- All sixteen words of a `COMPRESS` line, `w0` first. -/
def parseBlock (ps : List (List Char)) : Option BlockWords :=
  let ws := ps.map fun p => (parseWord p).getD 0
  if h : ws.length = 16 then
    if ps.all fun p => (parseWord p).isSome then
      some (Vector.ofFn fun j : Fin 16 => ws[j.val]'(Nat.lt_of_lt_of_eq j.isLt h.symm))
    else none
  else none

/-- R77, R78: one line. R77 gives a line one command or pseudo-instruction; that a blank line, or one with a comment only, may
stand in a program and gives no moves is the model's choice (notes/assumptions/17.md). -/
def assembleLine (line : List Char) : Except AsmError (List HostMove) :=
  match pieces false [] line with
  | [] => .ok []
  | ['I', 'N', 'I', 'T'] :: ps => if ps = [] then .ok [.wait, .offer initWord] else .error .wrongOperands
  | ['C', 'O', 'M', 'P', 'R', 'E', 'S', 'S'] :: ps =>
    match parseBlock ps with
    | some m => .ok [.wait, .offer (compressWord m)]
    | none => .error .badBlockWord
  | ['R', 'E', 'S', 'E', 'T'] :: ps => if ps = [] then .ok [.reset] else .error .wrongOperands
  | ['W', 'A', 'I', 'T'] :: ps => if ps = [] then .ok [.wait] else .error .wrongOperands
  | ['D', 'I', 'G', 'E', 'S', 'T'] :: ps =>
    match ps with
    | [['-', '>'], d] => .ok [.digest d]
    | _ => .error .wrongOperands
  | ['H', 'A', 'S', 'H'] :: ps =>
    match ps with
    | [m, ['-', '>'], d] =>
      match parseMessage m with
      | some bs => .ok [.hash bs d]
      | none => .error .badMessage
    | _ => .error .wrongOperands
  | _ => .error .unknownMnemonic

/-- The lines of a text; `cur` is the line being read, reversed. -/
def textLines (cur : List Char) : List Char → List (List Char)
  | [] => [cur.reverse]
  | c :: cs => if c = '\n' then cur.reverse :: textLines [] cs else textLines (c :: cur) cs

/-- The moves of a list of lines, in order, or the first line's error. -/
def assembleLines : List (List Char) → Except AsmError (List HostMove)
  | [] => .ok []
  | l :: ls =>
    match assembleLine l, assembleLines ls with
    | .ok ms, .ok rest => .ok (ms ++ rest)
    | .error e, _ => .error e
    | .ok _, .error e => .error e

/-- R77: a program text as the host's moves. -/
def assemble (text : List Char) : Except AsmError (List HostMove) := assembleLines (textLines [] text)

/-- R77: a hexadecimal digit in lower case. -/
def hexChar (x : BitVec 4) : Char :=
  if x.toNat < 10 then Char.ofNat ('0'.toNat + x.toNat) else Char.ofNat ('a'.toNat + x.toNat - 10)

/-- The `n` lowest hexadecimal digits of a value, most significant first. -/
def hexText {w : Nat} (x : BitVec w) : Nat → List Char
  | 0 => []
  | n + 1 => hexChar (x.extractLsb' (4 * n) 4) :: hexText x n

/-- R77: the listing of a command word, `op:block`. -/
def listing (w : CmdWord) : List Char := hexText (cmdOpOf w) 1 ++ ':' :: hexText (cmdBlockOf w) 128

/-- R77: the text of a `COMPRESS` line. -/
def compressLine (m : BlockWords) : List Char :=
  ['C', 'O', 'M', 'P', 'R', 'E', 'S', 'S'] ++ m.toList.flatMap fun w => ' ' :: hexText w 8

end Sys2Proof.Machine
end

