-- ==== Sys2Proof/Machine/Instances.lean ====
section
/-! DEFINITION. A system of `n` = `N_CORES` instances (spec/00_scope.md R7, spec/10_state.md R36, spec/60_exceptions.md
R190: "A model with several instances is the product of independent single-instance models"). The ROMs are the only thing
shared; which instance steps next is the caller's choice, so every interleaving of R65 is a sequence of such steps. -/

namespace Sys2Proof.Machine

/-- R7, R190: `N_CORES`, an integer of 1 or more, open in the spec (92_eei_decisions.md D16). -/
abbrev NCores := { n : Nat // 1 ≤ n }

/-- R36: each instance has its own state and its own ports. -/
abbrev System (n : NCores) := Vector State n.val

/-- R190: all instances "start the same way (reset)". -/
def System.reset (n : NCores) : System n := Vector.replicate n.val State.reset

/-- One step of instance `i`, the others as they were. -/
def System.stepAt {n : NCores} (sys : System n) (i : Fin n.val) : Host.Outcome (System n) Fault Refusal :=
  match step sys[i] with
  | .next s => .next (sys.set i.val s i.isLt)
  | .fault f => .fault f
  | .refused r => .refused r

/-- R65: one interleaving, the instance of each step named in order; it stops at the first fault or refusal. -/
def System.run {n : NCores} : List (Fin n.val) → System n → Host.Outcome (System n) Fault Refusal
  | [], sys => .next sys
  | i :: is, sys =>
    match sys.stepAt i with
    | .next x => System.run is x
    | .fault f => .fault f
    | .refused r => .refused r

end Sys2Proof.Machine
end

