-- ==== Sys2Proof/Safety.lean ====
section
/-! DEFINITION. The terms claims are stated in: the reachable sequencer words (spec/10_state.md R28), the invariants of a
run, what can be observed (R34), and runs of many edges. -/

namespace Sys2Proof.Machine

/-- R28: the 115 reachable values of (`phase`, `t`). -/
abbrev SeqReachable (phase : BitVec 3) (t : BitVec 6) : Prop :=
  (phase = Phase.idle ∧ t = 0) ∨ (phase = Phase.expand ∧ 16 ≤ t.toNat) ∨ (phase = Phase.winit ∧ t = 0) ∨
  phase = Phase.round ∨ (phase = Phase.acc ∧ t = 0)

/-- R28: the phase is idle and so is the counter; a command can be accepted. -/
abbrev State.Idle (s : State) : Prop := s.phase = Phase.idle ∧ s.t = 0

/-- R170: a move that the driver gives a meaning. -/
def HostMove.withinLimit : HostMove → Bool
  | .hash m _ => decide (8 * m.length < Config.messageBitLimit)
  | .drive _ => true
  | .reset => true
  | .offer _ => true
  | .wait => true
  | .digest _ => true
  | .sample _ => true

/-- R114: a move that keeps `rst` = 0. -/
def HostMove.keepsRstLow : HostMove → Bool
  | .drive p => !p.rst
  | .reset => false
  | .offer _ => true
  | .wait => true
  | .digest _ => true
  | .sample _ => true
  | .hash _ _ => true

/-- What a run from reset keeps: a reachable sequencer word, and no message the driver refuses. -/
abbrev State.Inv (s : State) : Prop :=
  SeqReachable s.phase s.t ∧ ∀ m ∈ s.host, m.withinLimit = true

/-- Every move of the host keeps `rst` = 0 and is within the driver's limit. -/
abbrev State.HostCalm (s : State) : Prop :=
  ∀ m ∈ s.host, m.keepsRstLow = true ∧ m.withinLimit = true

/-- R132: entries 16 to `n - 1` of a schedule obey the recurrence. -/
def ScheduleFilled (W : Schedule) (n : Nat) : Prop :=
  ∀ i, (h : i < 64) → 16 ≤ i → i < n → W[i] = expandWord W ⟨i, h⟩

/-- What a `COMPRESS` in progress keeps (R132, R143): the schedule filled so far, and the working registers the result of
the rounds so far on the Hash State. -/
def State.DataInv (s : State) : Prop :=
  (s.phase = Phase.expand → ScheduleFilled s.W s.t.toNat) ∧
  (s.phase = Phase.winit → ScheduleFilled s.W 64) ∧
  (s.phase = Phase.round → ScheduleFilled s.W 64 ∧ s.v = rounds s.W s.H s.t.toNat) ∧
  (s.phase = Phase.acc → ScheduleFilled s.W 64 ∧ s.v = rounds s.W s.H 64)

/-- The block in the first sixteen entries of the schedule (R112). -/
def State.loadedBlock (s : State) : BlockWords := Vector.ofFn fun j => s.W[j.val]

/-- R34: two states that differ in `W` and `a` to `h` at most. -/
abbrev SameVisible (s u : State) : Prop :=
  s.H = u.H ∧ s.phase = u.phase ∧ s.t = u.t ∧ s.host = u.host ∧ s.samples = u.samples

/-- R212: a move without its data words: block bits and message bytes zero, the result's name empty. -/
def HostMove.eraseData : HostMove → HostMove
  | .drive p => .drive { p with cmdBlock := 0 }
  | .reset => .reset
  | .offer w => .offer (cmdWord (cmdOpOf w) 0)
  | .wait => .wait
  | .digest _ => .digest []
  | .sample _ => .sample []
  | .hash m _ => .hash (List.replicate m.length 0) []

/-- R212: two states at the same point of the sequencer whose hosts' moves differ in data at most. -/
def SameControl (s u : State) : Prop :=
  s.phase = u.phase ∧ s.t = u.t ∧ s.host.map HostMove.eraseData = u.host.map HostMove.eraseData

/-- Two outcomes of the same kind, next states related by `R` and reasons equal. -/
def OutcomesAgree (R : State → State → Prop) :
    Host.Outcome State Fault Refusal → Host.Outcome State Fault Refusal → Prop
  | .next s, .next u => R s u
  | .fault f, .fault g => f = g
  | .refused r, .refused q => r = q
  | _, _ => False

/-- The instruction `i` is what the machine performs at an edge with `rst` = 0 in state `s`, whatever the host's turn:
`step` is `exec i` at the state with the host's turn taken. -/
def PerformedNext (s : State) (i : Instr) : Prop :=
  ∀ turn : Turn, hostTurn s.cmdReady s.digest s.host = .next turn → turn.pins.rst = false →
    step s = exec i { s with host := turn.rest, samples := s.samples ++ turn.samples }

/-- The same for a command: `i` is performed when the host's turn offers a command word that satisfies `p`. -/
def AcceptedNext (s : State) (p : CmdWord → Prop) (i : Instr) : Prop :=
  ∀ turn : Turn, hostTurn s.cmdReady s.digest s.host = .next turn → turn.pins.rst = false →
    turn.pins.cmdValid = true → p (turn.pins.cmdOp ++ turn.pins.cmdBlock) →
    step s = exec i { s with host := turn.rest, samples := s.samples ++ turn.samples }

/-- `k` clock edges, stopping at the first fault or refusal (`Host.Core.run` of this machine: `run_eq_core_run`). -/
def run : Nat → State → Host.Outcome State Fault Refusal
  | 0, s => .next s
  | k + 1, s =>
    match step s with
    | .next u => run k u
    | .fault f => .fault f
    | .refused r => .refused r

/-- R173: the run of a program is over: every command accepted and `phase` = `IDLE`. R173 does not say whether `WAIT`, `DIGEST`,
`RESET` or other lines after the last command still belong to the run; the model's choice is that they do, so that the host has
nothing left to do at all (notes/assumptions/23.md). -/
def State.runOver (s : State) : Bool := s.host.isEmpty && s.cmdReady

/-- A safe run: `k` edges without a fault or a refusal. -/
def RunsSafely (k : Nat) (s : State) : Prop := ∃ u, run k s = .next u

end Sys2Proof.Machine
end

