-- ==== Sys2Proof/Certificates/Slice0/Obligations.lean ====
section
/-! DEFINITION. The statements about this machine. Constants, bit positions and formulas of the spec are written out in the
statements where the spec states them, so that a statement does not rest on the model's own definition of them. -/

section
open Sys2Proof Sys2Proof.Machine

/-! ### Encoding -/

/-- spec/30_encoding.md R71, R72, R74: decoding the word of any well-formed instruction gives it back, operands included. -/
def Obligations.DecodeOfEncodeIsIdentity : Prop :=
  ∀ i : Instr, i.wellFormed = true → decode (encode i) = .ok i

/-- R74, R75: what decodes is well-formed, and its word is the encoder's, but for `INIT`, whose block bits are ignored. -/
def Obligations.EncodeOfDecodeIsCanonical : Prop :=
  ∀ (e : Encoded) (i : Instr), decode e = .ok i →
    i.wellFormed = true ∧ (i ≠ .init → encode i = e) ∧
    (i = .init → ∃ b : Block, e = .cmd ((0 : BitVec 1) ++ b))

/-- R74: words written out from the table's patterns decode to the instructions they stand for. -/
def Obligations.SampleWordsDecode : Prop :=
  decode (.cmd 0) = .ok .init ∧
  decode (.cmd (BitVec.ofNat 513 (2 ^ 512 + 2 ^ 480 + 3))) = .ok (.compress (BitVec.ofNat 512 (2 ^ 480 + 3))) ∧
  decode (.seq 0b001010000) = .ok (.uexp 16) ∧
  decode (.seq 0b001111111) = .ok (.uexp 63) ∧
  decode (.seq 0b010000000) = .ok .uwinit ∧
  decode (.seq 0b011000101) = .ok (.urnd 5) ∧
  decode (.seq 0b100000000) = .ok .uacc

/-- R75: there is no illegal command word; with `op` = 0 every value of the block bits is `INIT`, with `op` = 1 every
value is an operand of `COMPRESS`. -/
def Obligations.EveryCommandWordIsACommand : Prop :=
  ∀ b : Block, decode (.cmd ((0 : BitVec 1) ++ b)) = .ok .init ∧
    decode (.cmd ((1 : BitVec 1) ++ b)) = .ok (.compress b)

/-- R76: a sequencer word selects a micro-operation exactly when it is reachable and not idle; of the 512 words 114 do. -/
def Obligations.SequencerWordsThatSelect : Prop :=
  (∀ (p : BitVec 3) (t : BitVec 6),
    (∃ i, decode (.seq (p ++ t)) = .ok i) ↔ (SeqReachable p t ∧ ¬(p = 0 ∧ t = 0))) ∧
  ((List.range 512).filter fun n => (decodeSeq (BitVec.ofNat 9 n)).toBool).length = 114

/-- R74: `w`, numbered as the opcode table numbers it, placed where the machine takes its next instruction from: the next
step performs exactly the instruction the decoder reads from it. The placement is the model's (notes/assumptions/15.md). -/
def Obligations.PlacedWordIsPerformedNext : Prop :=
  ∀ (s : State) (nbits w : Nat) (i : Instr), decodeTableWord nbits w = some i →
    step (s.withFetchWord nbits w) = exec i { s.withFetchWord nbits w with host := s.host }

/-! ### Word functions -/

/-- spec/40_primitives.md R91: rotation right, as a map of bits and as arithmetic. -/
def Obligations.RotateRightMovesBits : Prop :=
  ∀ (x : Word) (n : Nat), 1 ≤ n → n ≤ 31 →
    (∀ i, i < 32 → (rotr x n).getLsbD i = x.getLsbD ((i + n) % 32)) ∧
    (rotr x n).toNat = x.toNat / 2 ^ n + x.toNat % 2 ^ n * 2 ^ (32 - n)

/-- R92: the logical right shift, as a map of bits and as arithmetic. -/
def Obligations.ShiftRightEntersZeros : Prop :=
  ∀ (x : Word) (n : Nat),
    (∀ i, (shr x n).getLsbD i = (decide (i + n ≤ 31) && x.getLsbD (i + n))) ∧
    (shr x n).toNat = x.toNat / 2 ^ n

/-- R93 to R96: the four sigma functions, bit by bit. -/
def Obligations.SigmaFunctionsBitByBit : Prop :=
  ∀ (x : Word) (i : Nat), i < 32 →
    (ssig0 x).getLsbD i =
      (x.getLsbD ((i + 7) % 32) ^^ x.getLsbD ((i + 18) % 32) ^^ (decide (i + 3 ≤ 31) && x.getLsbD (i + 3))) ∧
    (ssig1 x).getLsbD i =
      (x.getLsbD ((i + 17) % 32) ^^ x.getLsbD ((i + 19) % 32) ^^ (decide (i + 10 ≤ 31) && x.getLsbD (i + 10))) ∧
    (bsig0 x).getLsbD i =
      (x.getLsbD ((i + 2) % 32) ^^ x.getLsbD ((i + 13) % 32) ^^ x.getLsbD ((i + 22) % 32)) ∧
    (bsig1 x).getLsbD i =
      (x.getLsbD ((i + 6) % 32) ^^ x.getLsbD ((i + 11) % 32) ^^ x.getLsbD ((i + 25) % 32))

/-- R97, R98: `Ch` takes the bit of `y` or of `z` as the bit of `x` says; a bit of `Maj` is 1 when at least two of the three
are. -/
def Obligations.ChooseAndMajorityBitByBit : Prop :=
  ∀ (x y z : Word) (i : Nat), i < 32 →
    (ch x y z).getLsbD i = (if x.getLsbD i then y.getLsbD i else z.getLsbD i) ∧
    (maj x y z).getLsbD i =
      decide (2 ≤ (x.getLsbD i).toNat + (y.getLsbD i).toNat + (z.getLsbD i).toNat)

/-- spec/10_state.md R29, R30 and 93_implementation_defined.md G4: every entry of `K` is the first 32 bits of the fractional
part of the cube root of the next prime from 2 to 311, every entry of `IV` of the square root of one from 2 to 19. -/
def Obligations.RomEntriesAreRootsOfPrimes : Prop :=
  ∀ ps : List Nat, ps = (List.range 312).filter Nat.Prime →
    ps.length = 64 ∧
    (∀ t : Fin 64, ∃ n < 8, (n * 2 ^ 32 + (K t).toNat) ^ 3 ≤ ps.getD t.val 0 * 2 ^ 96 ∧
      ps.getD t.val 0 * 2 ^ 96 < (n * 2 ^ 32 + (K t).toNat + 1) ^ 3) ∧
    ∀ j : Fin 8, ∃ n < 8, (n * 2 ^ 32 + (IV[j]).toNat) ^ 2 ≤ ps.getD j.val 0 * 2 ^ 64 ∧
      ps.getD j.val 0 * 2 ^ 64 < (n * 2 ^ 32 + (IV[j]).toNat + 1) ^ 2

/-! ### The instructions -/

/-- spec/41_commands.md R111: the word with `op` = 0, any block bits, is `INIT`; it is performed at the edge with `rst` = 0
at which it is offered and the core is idle; it loads all eight words of `H`, leaves the core idle and changes nothing
else. -/
def Obligations.InitLoadsInitialValues : Prop :=
  (∀ b : Block, decode (.cmd ((0 : BitVec 1) ++ b)) = .ok .init) ∧
  (∀ s : State, s.phase = 0 → s.t = 0 → AcceptedNext s (fun w => ∃ b : Block, w = (0 : BitVec 1) ++ b) .init) ∧
  ∀ s : State, s.phase = 0 → s.t = 0 → exec .init s = .next { s with
    H := #v[0x6a09e667, 0xbb67ae85, 0x3c6ef372, 0xa54ff53a, 0x510e527f, 0x9b05688c, 0x1f83d9ab, 0x5be0cd19] }

/-- R112: the word with `op` = 1 is `COMPRESS` of its block bits; it is performed at the edge with `rst` = 0 at which it is
offered and the core is idle; it copies the sixteen words of the block into `W[0..15]`, moves the sequencer to (`EXPAND`, 16),
and changes nothing else: not `W[16..63]`, not `H`, not `a` to `h`. From the next edge
on, with `rst` = 0, the core is busy and performs `UEXP` at 16 to 63, `UWINIT`, `URND` at 0 to 63 and `UACC`, one a step, and is
then idle. -/
def Obligations.CompressLoadsTheBlock : Prop :=
  ∀ b : Block,
    decode (.cmd ((1 : BitVec 1) ++ b)) = .ok (.compress b) ∧
    (∀ s : State, s.phase = 0 → s.t = 0 → AcceptedNext s (fun w => w = (1 : BitVec 1) ++ b) (.compress b)) ∧
    ∀ s : State, s.phase = 0 → s.t = 0 →
      (∃ w : Vector Word 64, exec (.compress b) s = .next { s with W := w, phase := 1, t := 16 } ∧
        ∀ j, (h : j < 64) → w[j] = if j < 16 then b.extractLsb' (480 - 32 * j) 32 else s.W[j]) ∧
      ∀ r : List HostMove, s.host = .offer ((1 : BitVec 1) ++ b) :: r → s.HostCalm →
        (∀ k, k < 114 → ∃ u, run (k + 1) s = .next u ∧ u.cmdReady = false ∧
          PerformedNext u (if k < 48 then .uexp (BitVec.ofNat 6 (16 + k)) else if k = 48 then .uwinit
            else if k < 113 then .urnd (BitVec.ofNat 6 (k - 49)) else .uacc)) ∧
        ∃ u, run 115 s = .next u ∧ u.cmdReady = true

/-- R118: in a busy core a command is not performed: its own effect is none (what the sequencer does at that edge is the
micro-operation's). That `exec` of a command answers the unchanged state there is the model's reading
(notes/assumptions/5.md). -/
def Obligations.CommandsDoNothingWhileBusy : Prop :=
  ∀ (s : State) (b : Block), s.phase ≠ 0 → exec .init s = .next s ∧ exec (.compress b) s = .next s

/-- spec/42_schedule_expander.md R131: the sequencer word (`EXPAND`, `t`), `t` from 16 to 63, is `UEXP` at `t`, performed at
each edge with `rst` = 0 in that state; it writes entry `t` of the schedule, moves the sequencer on, and changes nothing
else. -/
def Obligations.UexpWritesOneScheduleWord : Prop :=
  ∀ t : BitVec 6, (ht : 16 ≤ t.toNat) →
    decode (.seq ((1 : BitVec 3) ++ t)) = .ok (.uexp t) ∧
    ∀ s : State, s.phase = 1 → s.t = t → PerformedNext s (.uexp t) ∧ ∃ w : Vector Word 64,
      exec (.uexp t) s = .next { s with
        W := w
        phase := if t = 63 then 2 else 1
        t := if t = 63 then 0 else t + 1 } ∧
      (∀ j, (h : j < 64) → j ≠ t.toNat → w[j] = s.W[j]) ∧
      w[t.toNat] =
        ((s.W[t.toNat - 2]).rotateRight 17 ^^^ (s.W[t.toNat - 2]).rotateRight 19 ^^^ s.W[t.toNat - 2] >>> 10) +
        s.W[t.toNat - 7] +
        ((s.W[t.toNat - 15]).rotateRight 7 ^^^ (s.W[t.toNat - 15]).rotateRight 18 ^^^ s.W[t.toNat - 15] >>> 3) +
        s.W[t.toNat - 16]

/-- The model's choice (notes/assumptions/7.md, one of the two ways that 93_implementation_defined.md U5 leaves a model): an
operand of `UEXP` below 16 is refused by its sequencer word. The spec says only that it is no instruction and defines nothing
for it (R76). -/
def Obligations.UexpBelow16IsRefused : Prop :=
  ∀ (s : State) (t : BitVec 6), t.toNat < 16 →
    exec (.uexp t) s = .refused (.unreachableSequencerWord ((1 : BitVec 3) ++ t))

/-- spec/43_round_mixer.md R141: the sequencer word (`WINIT`, 0) is `UWINIT`, performed at the edge with `rst` = 0 in that
state; it copies the Hash State into `a` to `h`, moves the sequencer to (`ROUND`, 0), and changes nothing else. -/
def Obligations.UwinitCopiesHashState : Prop :=
  decode (.seq ((2 : BitVec 3) ++ (0 : BitVec 6))) = .ok .uwinit ∧
  ∀ s : State, s.phase = 2 → s.t = 0 → PerformedNext s .uwinit ∧ ∃ v : Vector Word 8,
    exec .uwinit s = .next { s with v := v, phase := 3, t := 0 } ∧ ∀ j, (h : j < 8) → v[j] = s.H[j]

/-- R142: the sequencer word (`ROUND`, `t`) is `URND` at `t`, performed at each edge with `rst` = 0 in that state; it gives
all eight registers their new values from their values before the step, moves the sequencer on, and changes nothing else. -/
def Obligations.UrndMixesOneRound : Prop :=
  ∀ t : BitVec 6,
    decode (.seq ((3 : BitVec 3) ++ t)) = .ok (.urnd t) ∧
    ∀ s : State, s.phase = 3 → s.t = t → PerformedNext s (.urnd t) ∧
    ∀ a b c d e f g h T1 T2 : Word, s.v = #v[a, b, c, d, e, f, g, h] →
      T1 = h + (e.rotateRight 6 ^^^ e.rotateRight 11 ^^^ e.rotateRight 25) + ((e &&& f) ^^^ (~~~e &&& g)) +
        K ⟨t.toNat, t.isLt⟩ + s.W[t.toNat] →
      T2 = (a.rotateRight 2 ^^^ a.rotateRight 13 ^^^ a.rotateRight 22) + ((a &&& b) ^^^ (a &&& c) ^^^ (b &&& c)) →
      exec (.urnd t) s = .next { s with
        v := #v[T1 + T2, a, b, c, d + T1, e, f, g]
        phase := if t = 63 then 4 else 3
        t := if t = 63 then 0 else t + 1 }

/-- spec/44_accumulator.md R151: the sequencer word (`ACC`, 0) is `UACC`, performed at the edge with `rst` = 0 in that state;
it adds the working registers to the Hash State word by word modulo 2^32, returns the sequencer to (`IDLE`, 0), and changes
nothing else. -/
def Obligations.UaccAddsWorkingRegisters : Prop :=
  decode (.seq ((4 : BitVec 3) ++ (0 : BitVec 6))) = .ok .uacc ∧
  ∀ s : State, s.phase = 4 → s.t = 0 → PerformedNext s .uacc ∧ ∃ x : Vector Word 8,
    exec .uacc s = .next { s with H := x, phase := 0, t := 0 } ∧
    ∀ j, (h : j < 8) → (x[j]).toNat = ((s.H[j]).toNat + (s.v[j]).toNat) % 2 ^ 32

/-- R143: one round as a function; `URND` at `t` applies it with `K[t]` and `W[t]`; after `UWINIT` and 64 `URND` steps the
working registers are its 64-fold application to the Hash State, at (`ACC`, 0); for a fixed constant and schedule word it is
a bijection on the eight words. -/
def Obligations.RoundIsAFunctionAndABijection : Prop :=
  (∀ a b c d e f g h k w T1 T2 : Word, T1 = h + bsig1 e + ch e f g + k + w → T2 = bsig0 a + maj a b c →
    mixRound #v[a, b, c, d, e, f, g, h] k w = #v[T1 + T2, a, b, c, d + T1, e, f, g]) ∧
  (∀ (s : State) (t : BitVec 6), s.phase = 3 → s.t = t → ∃ u, exec (.urnd t) s = .next u ∧
    u.v = mixRound s.v (K ⟨t.toNat, t.isLt⟩) (s.W[t.toNat]'t.isLt)) ∧
  (∀ s : State, s.phase = 2 → s.t = 0 → s.HostCalm → ∃ u, run 65 s = .next u ∧ u.phase = 4 ∧ u.t = 0 ∧
    u.v = (List.finRange 64).foldl (fun v t => mixRound v (K t) s.W[t]) s.H) ∧
  ∀ k w : Word, Function.Bijective fun v : Words8 => mixRound v k w

/-! ### Reset and the ports -/

/-- spec/70_reset_and_hazards.md R200: an edge with `rst` = 1, in whatever state (unreachable ones too) and whatever the
other inputs: `H` = `IV`, (`IDLE`, 0), and `W` and `a` to `h` not written. -/
def Obligations.ResetEdgeFromAnyState : Prop :=
  ∀ (s : State) (p : Pins) (r : List HostMove), p.rst = true →
    (s.host = .drive p :: r ∨ s.host = .reset :: r) →
    step s = .next { s with
      H := #v[0x6a09e667, 0xbb67ae85, 0x3c6ef372, 0xa54ff53a, 0x510e527f, 0x9b05688c, 0x1f83d9ab, 0x5be0cd19]
      phase := 0
      t := 0
      host := r }

/-- spec/10_state.md R37: the values the spec gives the state after reset, and the ports' values that follow. -/
def Obligations.ResetStateValues : Prop :=
  State.reset.H = #v[0x6a09e667, 0xbb67ae85, 0x3c6ef372, 0xa54ff53a, 0x510e527f, 0x9b05688c, 0x1f83d9ab, 0x5be0cd19] ∧
  State.reset.phase = 0 ∧ State.reset.t = 0 ∧ State.reset.cmdReady = true ∧
  State.reset.digest = 0x6a09e667bb67ae853c6ef372a54ff53a510e527f9b05688c1f83d9ab5be0cd19

/-- R201: reset wipes out everything before it: two states of any kind that reset alike behave alike ever after, as far as
the ports and the host's samples show. -/
def Obligations.ResetForgetsEverything : Prop :=
  ∀ (s u : State) (r : List HostMove), s.host = .reset :: r → u.host = .reset :: r → s.samples = u.samples →
    ∀ k, 1 ≤ k → OutcomesAgree SameVisible (run k s) (run k u)

/-- R33: `digest` is `{H[0], ..., H[7]}`, `H[0]` in bits [255:224]. -/
def Obligations.DigestPortLayout : Prop :=
  ∀ (s : State) (j : Nat), (h : j < 8) → s.digest.extractLsb' (224 - 32 * j) 32 = s.H[j]

/-- R32, R33, spec/20_memory.md R56: with `rst` = 0, no step of a `COMPRESS` in progress but `UACC` moves `digest`. -/
def Obligations.DigestHoldsWhileBusy : Prop :=
  ∀ (s u : State), s.HostCalm → s.cmdReady = false → s.phase ≠ 4 → step s = .next u →
    u.H = s.H ∧ u.digest = s.digest

/-! ### The sequencer and the handshake -/

/-- R72, spec/10_state.md R31: at an edge with `rst` = 0, `step` is `exec` of the instruction that the sequencer word
selects, or, when idle, of the one the offered command word decodes to, at the state with the host's turn taken; with no
command offered nothing happens. -/
def Obligations.StepPerformsTheDecodedInstruction : Prop :=
  ∀ (s : State) (turn : Turn), hostTurn s.cmdReady s.digest s.host = .next turn → turn.pins.rst = false →
    ∀ s1 : State, s1 = { s with host := turn.rest, samples := s.samples ++ turn.samples } →
      (∀ i, decode (.seq (s.phase ++ s.t)) = .ok i → step s = exec i s1) ∧
      (s.phase = 0 → s.t = 0 → turn.pins.cmdValid = true →
        ∀ i, decode (.cmd (turn.pins.cmdOp ++ turn.pins.cmdBlock)) = .ok i → step s = exec i s1) ∧
      (s.phase = 0 → s.t = 0 → turn.pins.cmdValid = false → step s = .next s1)

/-- R116: the whole table of the sequencer, for every reachable state and, with `rst` = 1, for every state: the step that is
performed (at the state with the host's turn taken), and (`phase`, `t`) afterwards. -/
def Obligations.SequencerFollowsItsTable : Prop :=
  ∀ (s : State) (turn : Turn), hostTurn s.cmdReady s.digest s.host = .next turn →
    (turn.pins.rst = true ∨ SeqReachable s.phase s.t) →
    ∀ s1 : State, s1 = { s with host := turn.rest, samples := s.samples ++ turn.samples } →
    (step s =
      if turn.pins.rst then .next s1.resetEdge
      else if s.phase = 0 then
        if turn.pins.cmdValid then
          if turn.pins.cmdOp = 0 then exec .init s1 else exec (.compress turn.pins.cmdBlock) s1
        else .next s1
      else if s.phase = 1 then exec (.uexp s.t) s1
      else if s.phase = 2 then exec .uwinit s1
      else if s.phase = 3 then exec (.urnd s.t) s1
      else exec .uacc s1) ∧
    ∃ u, step s = .next u ∧
      (u.phase, u.t) =
        if turn.pins.rst then (0, 0)
        else if s.phase = 0 then
          if turn.pins.cmdValid ∧ turn.pins.cmdOp = 1 then (1, 16) else (0, 0)
        else if s.phase = 1 then if s.t = 63 then (2, 0) else (1, s.t + 1)
        else if s.phase = 2 then (3, 0)
        else if s.phase = 3 then if s.t = 63 then (4, 0) else (3, s.t + 1)
        else (0, 0)

/-- R20, R21, R22, R23: who writes what. In any step: `H` changes only at a reset edge, an accepted `INIT` or `UACC`;
`a` to `h` only in the phases `WINIT` and `ROUND`; `W` only at an accepted `COMPRESS`, or entry `t` in the phase `EXPAND`. -/
def Obligations.WritersOfEachRegister : Prop :=
  ∀ (s u : State) (turn : Turn), hostTurn s.cmdReady s.digest s.host = .next turn → step s = .next u →
    (u.H = s.H ∨ (turn.pins.rst = true ∧ u.H = IV) ∨
      (turn.pins.rst = false ∧ s.phase = 0 ∧ turn.pins.cmdValid = true ∧ turn.pins.cmdOp = 0 ∧ u.H = IV) ∨
      (turn.pins.rst = false ∧ s.phase = 4 ∧ ∀ j, (h : j < 8) → u.H[j] = s.H[j] + s.v[j])) ∧
    (u.v = s.v ∨ (turn.pins.rst = false ∧ (s.phase = 2 ∨ s.phase = 3))) ∧
    (u.W = s.W ∨
      (turn.pins.rst = false ∧ s.phase = 0 ∧ turn.pins.cmdValid = true ∧ turn.pins.cmdOp = 1 ∧
        ∀ j, (h : j < 64) → 16 ≤ j → u.W[j] = s.W[j]) ∨
      (turn.pins.rst = false ∧ s.phase = 1 ∧ ∀ j, (h : j < 64) → j ≠ s.t.toNat → u.W[j] = s.W[j]))

/-- R118: a command offered while the core is busy stays on offer, and the core does exactly what it does with no command
offered. -/
def Obligations.OfferWaitsWhileBusy : Prop :=
  ∀ (s : State) (w : CmdWord) (r : List HostMove), SeqReachable s.phase s.t → s.phase ≠ 0 → s.host = .offer w :: r →
    ∃ u, step s = .next u ∧ u.host = .offer w :: r ∧
      step { s with host := [] } = .next { u with host := [] }

/-- R118, spec/45_host_driver.md R172: a command offered in any reachable state is accepted within 115 edges. -/
def Obligations.OfferIsAccepted : Prop :=
  ∀ (s : State) (w : CmdWord), SeqReachable s.phase s.t → s.host = [.offer w] →
    ∃ k u, k ≤ 115 ∧ run k s = .next u ∧ u.host = []

/-- R120, R172: with `rst` = 0 a core in any reachable state is idle again after at most 114 micro-operations. -/
def Obligations.CoreReturnsToIdle : Prop :=
  ∀ s : State, SeqReachable s.phase s.t → s.HostCalm →
    ∃ k u, k ≤ 114 ∧ run k s = .next u ∧ u.phase = 0 ∧ u.t = 0

/-- R212: which steps are taken, and how many, depends on no data word: not on `H`, `W`, `a` to `h`, the block or the
message's bytes. -/
def Obligations.ControlIgnoresData : Prop :=
  ∀ s u : State, SameControl s u → ∀ k, OutcomesAgree SameControl (run k s) (run k u)

/-! ### Invariants and safety -/

/-- R28: the invariant holds after reset. -/
def Obligations.InvariantHoldsAtReset : Prop := State.reset.Inv

/-- R28: every step keeps the invariant: the sequencer word stays one of the 115 reachable ones. -/
def Obligations.StepKeepsInvariant : Prop :=
  ∀ s u : State, s.Inv → step s = .next u → u.Inv

/-- R132, R143: every step keeps what a `COMPRESS` in progress has computed so far: the schedule filled up to `t`, the
working registers the rounds up to `t` of the Hash State. -/
def Obligations.StepKeepsDataInvariant : Prop :=
  ∀ s u : State, s.Inv → s.DataInv → step s = .next u → u.DataInv

/-- The data invariant holds after reset. -/
def Obligations.DataInvariantHoldsAtReset : Prop := State.reset.DataInv

/-- R151, R152: in every state that keeps the invariants, the step of `UACC` makes `H` the per-block transition of `H` and
of the block that was loaded into `W[0..15]`. -/
def Obligations.AccumulatorCompletesCompress : Prop :=
  ∀ s u : State, s.Inv → s.DataInv → s.HostCalm → s.phase = 4 → step s = .next u →
    u.H = compress s.H s.loadedBlock

/-- spec/60_exceptions.md R180: no step faults, from any state whatever. -/
def Obligations.NoStepFaults : Prop :=
  ∀ (s : State) (f : Fault), step s ≠ .fault f

/-- R193: a step is refused for two reasons only: an unreachable sequencer word, or a message of 2^64 bits or more. -/
def Obligations.StepRefusesOnlyWithoutMeaning : Prop :=
  ∀ (s : State) (e : Refusal), step s = .refused e →
    (e = .unreachableSequencerWord (s.phase ++ s.t) ∧ ¬SeqReachable s.phase s.t) ∨
    (e = .messageTooLong ∧ ∃ m d, HostMove.hash m d ∈ s.host ∧ 2 ^ 64 ≤ 8 * m.length)

/-- R193: from every state that meets the invariant, a run never stops: no fault, no refusal, at any length. -/
def Obligations.RunsNeverStop : Prop :=
  ∀ s : State, s.Inv → ∀ k, ∃ u, run k s = .next u ∧ u.Inv

/-- In an unreachable sequencer word, with `rst` = 0 and a host that has a turn, the step is refused by that word: one of the
two ways that 93_implementation_defined.md U5 leaves a model, and this model's choice (notes/assumptions/7.md). -/
def Obligations.UnreachableWordIsRefused : Prop :=
  ∀ (s : State) (turn : Turn), hostTurn s.cmdReady s.digest s.host = .next turn → turn.pins.rst = false →
    ¬SeqReachable s.phase s.t → step s = .refused (.unreachableSequencerWord (s.phase ++ s.t))

/-! ### The per-block transition and chaining -/

/-- R132: the schedule of a block obeys the recurrence, and after the acceptance of `COMPRESS block` and 48 `UEXP` steps the
schedule is the one of that block, at (`WINIT`, 0). -/
def Obligations.ScheduleIsExpandAfter48Steps : Prop :=
  (∀ m : BlockWords,
    (∀ i, (h : i < 16) → (expand m)[i] = m[i]) ∧
    ∀ i, (h : i < 64) → (h16 : 16 ≤ i) → (expand m)[i] =
      ssig1 (expand m)[i - 2] + (expand m)[i - 7] + ssig0 (expand m)[i - 15] + (expand m)[i - 16]) ∧
  ∀ (s : State) (b : Block) (r : List HostMove), s.Idle → s.host = .offer ((1 : BitVec 1) ++ b) :: r → s.HostCalm →
    ∃ u, run 49 s = .next u ∧ u.W = expand (blockWords b) ∧ u.phase = 2 ∧ u.t = 0 ∧ u.H = s.H ∧ u.v = s.v

/-- R114: the net effect of `COMPRESS`: one acceptance step and 114 micro-operations after which the core is idle with
`H` = `compress(Hin, M)`; until the last of them `H` is `Hin` and the core is busy. -/
def Obligations.CompressNetEffect : Prop :=
  ∀ (s : State) (b : Block) (r : List HostMove), s.Idle → s.host = .offer ((1 : BitVec 1) ++ b) :: r → s.HostCalm →
    (∃ u, run 115 s = .next u ∧ u.phase = 0 ∧ u.t = 0 ∧ u.H = compress s.H (blockWords b)) ∧
    ∀ k, 1 ≤ k → k ≤ 114 → ∃ u, run k s = .next u ∧ u.phase ≠ 0 ∧ u.H = s.H

/-- R23, R115: a build that keeps a window of 16 schedule entries, each computed beside its round, gives the same result. -/
def Obligations.WindowedCompressIsCompress : Prop :=
  ∀ (hin : Words8) (m : BlockWords), compressWindow hin m = compress hin m

/-- R119, R120: `INIT` and one `COMPRESS` per block take 1 + 115 n steps and leave the chaining value of the blocks. -/
def Obligations.CommandsChainBlocks : Prop :=
  ∀ (s : State) (bs : List BlockWords), s.Idle →
    s.host = .offer 0 :: bs.map (fun m => .offer ((1 : BitVec 1) ++ packBlock m)) →
    ∃ u, run (1 + 115 * bs.length) s = .next u ∧ u.phase = 0 ∧ u.t = 0 ∧ u.host = [] ∧ u.H = bs.foldl compress IV

/-- R119: an `INIT` makes everything before it irrelevant to everything after it. -/
def Obligations.InitForgetsEverythingBefore : Prop :=
  ∀ (s u : State) (b : Block) (r : List HostMove), s.Idle → u.Idle →
    s.host = .offer ((0 : BitVec 1) ++ b) :: r → u.host = s.host → s.samples = u.samples →
    ∀ k, 1 ≤ k → OutcomesAgree SameVisible (run k s) (run k u)

/-- R34: what `W` and `a` to `h` hold while the core is idle reaches no port and no sample, ever. -/
def Obligations.IdleLeftoversNeverShow : Prop :=
  ∀ s u : State, s.phase = 0 → SameVisible s u → ∀ k, OutcomesAgree SameVisible (run k s) (run k u)

/-! ### The host's stages -/

/-- spec/45_host_driver.md R162: the padded message, read as bits, is the message's bits, a 1 bit, `z` 0 bits and the
64-bit length, `z` from the formula with the threshold 448. -/
def Obligations.PadIsBitPadding : Prop :=
  ∀ m : List Byte, 8 * m.length < 2 ^ 64 → ∃ p, pad m = some p ∧
    ∃ z, z = (if 8 * m.length % 512 ≤ 447 then 447 - 8 * m.length % 512 else 512 - 8 * m.length % 512 + 447) ∧
      messageBits p = messageBits m ++ true :: (List.replicate z false ++
        (List.range 64).map fun i => (8 * m.length).testBit (63 - i))

/-- R163: the padded message in bytes: the message, the byte `80`, `p` bytes `00` with `p` from `q = L mod 64`, the eight
bytes of the bit length, most significant first; its number of blocks. -/
def Obligations.PadInBytes : Prop :=
  ∀ m : List Byte, 8 * m.length < 2 ^ 64 → ∃ p z, pad m = some p ∧
    z = (if m.length % 64 ≤ 55 then 55 - m.length % 64 else 119 - m.length % 64) ∧
    p = m ++ 0x80 :: (List.replicate z 0 ++ (List.range 8).map fun i => BitVec.ofNat 8 (8 * m.length / 2 ^ (56 - 8 * i))) ∧
    p.length = m.length + 1 + z + 8 ∧ p.length % 64 = 0 ∧ m.length + 9 ≤ p.length ∧ p.length < m.length + 9 + 64 ∧
    p.length / 64 = (m.length + 8) / 64 + 1

/-- R164: the padded message begins with the message, is the shortest multiple of 64 bytes that holds 9 bytes more,
and its last eight bytes are the message's bit length, big-endian. -/
def Obligations.PadInvariants : Prop :=
  ∀ m : List Byte, 8 * m.length < 2 ^ 64 → ∃ p, pad m = some p ∧
    m <+: p ∧ p.length = 64 * ((m.length + 8) / 64 + 1) ∧
    (p.drop (p.length - 8)).foldl (fun n b => 256 * n + b.toNat) 0 = 8 * m.length

/-- R170: a message of 2^64 bits or more is refused by name. That it is refused at the edge at which the host comes to it is
the model's choice (notes/assumptions/13.md). -/
def Obligations.TooLongMessageIsRefused : Prop :=
  ∀ (s : State) (m : List Byte) (d : ResultName) (r : List HostMove), 2 ^ 64 ≤ 8 * m.length → s.host = .hash m d :: r →
    step s = .refused .messageTooLong

/-- R165, R52, R166: the Segmenter's blocks, packed for the port, hold the buffer's bytes in order, byte `k` of a chunk in
bits [511 - 8k : 504 - 8k]; a buffer that is no multiple of 64 bytes has no blocks. -/
def Obligations.SegmentedBlocksHoldTheBytes : Prop :=
  ∀ p : List Byte,
    (segmentBlocks p = none ↔ p.length % 64 ≠ 0) ∧
    ∀ bs, segmentBlocks p = some bs → p.length = 64 * bs.length ∧
      ∀ i k, (hi : i < bs.length) → k < 64 → ∀ b, p[64 * i + k]? = some b →
        (packBlock bs[i]).extractLsb' (504 - 8 * k) 8 = b

/-- R165 in its own words: block `i` has sixteen words, word `j` the big-endian number of the four bytes from `64i + 4j`; a
buffer that is no multiple of 64 bytes has no blocks, and a padded message is never one. -/
def Obligations.SegmentedWordsAreBigEndian : Prop :=
  ∀ p : List Byte,
    (p.length % 64 ≠ 0 → segmentBlocks p = none) ∧
    (p.length % 64 = 0 → ∃ bs, segmentBlocks p = some bs ∧ bs.length = p.length / 64 ∧
      ∀ i j, (hi : i < bs.length) → (hj : j < 16) → ∀ w x y z : Byte,
        p[64 * i + 4 * j]? = some w → p[64 * i + 4 * j + 1]? = some x →
        p[64 * i + 4 * j + 2]? = some y → p[64 * i + 4 * j + 3]? = some z →
        (bs[i][j]).toNat = w.toNat * 2 ^ 24 + x.toNat * 2 ^ 16 + y.toNat * 2 ^ 8 + z.toNat) ∧
    ∀ m, pad m = some p → p.length % 64 = 0

/-- R52, R166: splitting a packed block gives its sixteen words, and packing a block's words gives the block. -/
def Obligations.PackAndSplitAreInverse : Prop :=
  (∀ m : BlockWords, blockWords (packBlock m) = m) ∧ ∀ b : Block, packBlock (blockWords b) = b

/-- R167, R53: the Serializer's 32 bytes are the bytes of the port `digest`, most significant end first. -/
def Obligations.SerializerReadsTheDigestPort : Prop :=
  ∀ h : Words8, (serialize h).length = 32 ∧ digestBytes (digestOf h) = serialize h ∧
    ∀ j i, (hj : j < 8) → i < 4 → (serialize h)[4 * j + i]? = some ((h[j]).extractLsb' (24 - 8 * i) 8)

/-- R78, R57: `DIGEST` with `cmd_ready` = 1 samples the port and has no other effect: the edge is the one the host's next
move makes (the model's reading, notes/assumptions/3.md); with `cmd_ready` = 0 it waits and samples nothing. -/
def Obligations.DigestSamplesWithoutSideEffect : Prop :=
  ∀ (s : State) (d : ResultName) (r : List HostMove), s.host = .digest d :: r →
    (s.phase = 0 → step s = step { s with host := r, samples := s.samples ++ [⟨d, true, s.digest⟩] }) ∧
    (s.phase ≠ 0 → ∀ u, step s = .next u → u.host = .digest d :: r ∧ u.samples = s.samples)

/-- R168: `HASH m -> d` in any reachable state: a wait of at most 114 edges (none from an idle core), `INIT` and a `COMPRESS` for
each of the n = floor((L + 8) / 64) + 1 blocks, 1 + 115 n steps, and then a sample of `digest` that is
`serialize(compress(... compress(IV, B[0]) ..., B[n-1]))`. That the waits between the commands and the one before the sample
take no edge on an idle core, on which the count rests, is the model's reading (notes/assumptions/3.md). -/
def Obligations.HashSamplesTheMessageDigest : Prop :=
  ∀ (s : State) (m : List Byte) (d : ResultName), SeqReachable s.phase s.t → s.host = [.hash m d] → 8 * m.length < 2 ^ 64 →
    ∃ p bs k u, pad m = some p ∧ segmentBlocks p = some bs ∧ bs.length = (m.length + 8) / 64 + 1 ∧
      k ≤ 114 ∧ (s.phase = 0 → k = 0) ∧
      run (k + (1 + 115 * bs.length + 1)) s = .next u ∧ u.host = [] ∧ u.phase = 0 ∧ u.t = 0 ∧
      ∃ x, u.samples = s.samples ++ [⟨d, true, x⟩] ∧ digestBytes x = serialize (bs.foldl compress IV) ∧
        hashMessage m = .next (digestBytes x)

/-- spec/30_encoding.md R77: the text of a `COMPRESS` line, eight digits a word, assembles to a wait and the command word of
the same sixteen words. -/
def Obligations.CompressLineAssembles : Prop :=
  ∀ m : BlockWords, assembleLine (compressLine m) = .ok [.wait, .offer ((1 : BitVec 1) ++ packBlock m)]

/-! ### Several instances -/

/-- spec/20_memory.md R65, spec/10_state.md R36, spec/60_exceptions.md R190: all instances start in the reset state; a step of one
instance changes no other, and steps of two instances give the same system in either order; and whatever the interleaving, each
instance ends as it does when it runs its own steps alone. -/
def Obligations.InstancesDoNotInteract : Prop :=
  (∀ (n : NCores) (j : Fin n.val), (System.reset n)[j] = State.reset) ∧
  (∀ (n : NCores) (sys x y : System n) (i j : Fin n.val), i ≠ j → sys.stepAt i = .next x → sys.stepAt j = .next y →
    x[j] = sys[j] ∧ ∃ z, x.stepAt j = .next z ∧ y.stepAt i = .next z) ∧
  ∀ (n : NCores) (sys x : System n) (is : List (Fin n.val)),
    System.run is sys = .next x ↔ ∀ j : Fin n.val, run (is.count j) sys[j] = .next x[j]

/-! ### Samples of the ports -/

/-- spec/20_memory.md R57, R60, spec/45_host_driver.md R172, spec/70_reset_and_hazards.md R208: at any edge, in any state, the
host may take any number of samples: each shows the two ports as they stand, and the step is the one the host's next move makes
without them. A step, whatever it is, adds to the host's samples only what the ports show at its edge, and takes none away. When
the host offers `COMPRESS` to an idle core, drives any inputs without a reset or a command for `ps.length` edges, and samples: it
sees `cmd_ready` = 0 and the Hash State from before the command while the 114 micro-operations run, and from then on `cmd_ready` = 1
and the updated Hash State. That a sample takes no edge of its own is the model's choice (notes/assumptions/22.md). -/
def Obligations.SamplesShowThePorts : Prop :=
  (∀ (s : State) (ds : List ResultName) (r : List HostMove), s.host = ds.map .sample ++ r →
    step s = step { s with
      host := r
      samples := s.samples ++ ds.map fun d => ⟨d, decide (s.phase = 0), s.digest⟩ }) ∧
  (∀ s u : State, step s = .next u → ∃ xs, u.samples = s.samples ++ xs ∧
    ∀ x ∈ xs, x.digest = s.digest ∧ (x.ready = true ↔ s.phase = 0)) ∧
  ∀ (s : State) (b : Block) (ps : List Pins) (d : ResultName), s.Idle →
    (∀ p ∈ ps, p.rst = false ∧ p.cmdValid = false) →
    s.host = .offer ((1 : BitVec 1) ++ b) :: (ps.map .drive ++ [.sample d]) →
    ∃ u, run (1 + ps.length + 1) s = .next u ∧ u.host = [] ∧
      u.samples = s.samples ++ [if ps.length < 114 then ⟨d, false, s.digest⟩
        else ⟨d, true, digestOf (compress s.H (blockWords b))⟩]

end
end

