-- ==== Sys2Proof/Laws/Data.lean ====
section
/-! SUPPORT. One lemma per entry of what the data path's operations build. -/

namespace Sys2Proof.Machine

@[simp] theorem addWords_getElem (x y : Words8) (j : Nat) (h : j < 8) : (addWords x y)[j] = x[j] + y[j] := by
  simp [addWords]

@[simp] theorem blockWords_getElem (b : Block) (j : Nat) (h : j < 16) : (blockWords b)[j] = blockWord b j := by
  simp [blockWords]

theorem loadBlock_getElem (W : Schedule) (m : BlockWords) (i : Nat) (h : i < 64) :
    (loadBlock W m)[i] = if h16 : i < 16 then m[i] else W[i] := by
  simp [loadBlock]

theorem windowNext_getElem (w : BlockWords) (i : Nat) (h : i < 16) :
    (windowNext w)[i] = if h15 : i < 15 then w[i + 1] else ssig1 w[14] + w[9] + ssig0 w[1] + w[0] := by
  simp [windowNext]

/-- The expansion step past the end of the schedule does nothing; before it, it writes one entry. -/
theorem expandSteps_succ (W : Schedule) (n : Nat) (h : n + 16 < 64) :
    expandSteps W (n + 1) = (expandSteps W n).set (n + 16) (expandWord (expandSteps W n) ⟨n + 16, h⟩) := by
  simp [expandSteps, h]

theorem rounds_succ (W : Schedule) (v : Words8) (n : Nat) (h : n < 64) :
    rounds W v (n + 1) = mixRound (rounds W v n) (K ⟨n, h⟩) W[n] := by
  simp [rounds, h]

/-- R131: the word at `t` depends on the four entries it reads, and on no other. -/
theorem expandWord_congr (W V : Schedule) (t : Fin 64)
    (h : ∀ i, (hi : i < 64) → i < t.val → W[i] = V[i]) (ht : 16 ≤ t.val) : expandWord W t = expandWord V t := by
  have hr : ∀ c, 1 ≤ c → schedAt W t c = schedAt V t c := fun c hc => h _ _ (by omega)
  simp only [expandWord, hr 2 (by omega), hr 7 (by omega), hr 15 (by omega), hr 16 (by omega)]

end Sys2Proof.Machine
end

