-- ==== Sys2Proof/Laws/Decode.lean ====
section
/-! SUPPORT. The fields of the two formats, and what the sequencer decoder answers, said once. -/

namespace Sys2Proof

theorem extract_append_high {a b : Nat} (x : BitVec a) (y : BitVec b) : (x ++ y).extractLsb' b a = x := by
  apply BitVec.eq_of_getLsbD_eq
  intro i hi
  simp [BitVec.getLsbD_append, hi]

theorem extract_append_low {a b : Nat} (x : BitVec a) (y : BitVec b) : (x ++ y).extractLsb' 0 b = y := by
  apply BitVec.eq_of_getLsbD_eq
  intro i hi
  simp [BitVec.getLsbD_append, hi]

theorem append_extract {a b : Nat} (x : BitVec (a + b)) : x.extractLsb' b a ++ x.extractLsb' 0 b = x := by
  apply BitVec.eq_of_getLsbD_eq
  intro i hi
  simp only [BitVec.getLsbD_append, BitVec.getLsbD_extractLsb']
  by_cases h : i < b
  · simp [h]
  · simp [h, show b + (i - b) = i by omega, show i - b < a by omega]

@[simp] theorem seqPhaseOf_seqWord (p : BitVec 3) (t : BitVec 6) : seqPhaseOf (seqWord p t) = p :=
  extract_append_high p t

@[simp] theorem seqCounterOf_seqWord (p : BitVec 3) (t : BitVec 6) : seqCounterOf (seqWord p t) = t :=
  extract_append_low p t

@[simp] theorem cmdOpOf_cmdWord (op : BitVec 1) (b : Block) : cmdOpOf (cmdWord op b) = op :=
  extract_append_high op b

@[simp] theorem cmdBlockOf_cmdWord (op : BitVec 1) (b : Block) : cmdBlockOf (cmdWord op b) = b :=
  extract_append_low op b

@[simp] theorem cmdWord_fields (w : CmdWord) : cmdWord (cmdOpOf w) (cmdBlockOf w) = w :=
  append_extract (a := 1) (b := 512) w

@[simp] theorem seqWord_fields (w : SeqWord) : seqWord (seqPhaseOf w) (seqCounterOf w) = w :=
  append_extract (a := 3) (b := 6) w

/-- R72: the idle word is the one with both fields zero. -/
theorem seqWord_eq_zero_iff (p : BitVec 3) (t : BitVec 6) : seqWord p t = 0 ↔ p = Machine.Phase.idle ∧ t = 0 := by
  constructor
  · intro h
    constructor
    · rw [← seqPhaseOf_seqWord p t, h]; rfl
    · rw [← seqCounterOf_seqWord p t, h]; rfl
  · rintro ⟨rfl, rfl⟩; rfl

/-- R71, R74: a one-bit field is 0 or 1. -/
theorem bit_zero_or_one (x : BitVec 1) : x = 0 ∨ x = 1 := by
  revert x; decide

/-- R74: the command decoder in terms of the fields. -/
theorem decodeCmd_cmdWord (op : BitVec 1) (b : Block) :
    decodeCmd (cmdWord op b) = if op = 0 then .init else .compress b := by
  simp [decodeCmd, decodePort]

/-- R71: the port's two fields decode as the command word they make. -/
theorem decodeCmd_eq_decodePort (op : BitVec 1) (b : Block) : decodeCmd (cmdWord op b) = decodePort op b := by
  simp [decodeCmd]

/-- The command word that a table word is. -/
theorem cmdOfNat_eq (w : Nat) : cmdOfNat w = BitVec.ofNat 513 w := by
  apply BitVec.eq_of_getLsbD_eq
  intro i hi
  simp only [cmdOfNat, BitVec.getLsbD_append, BitVec.getLsbD_ofNat, Nat.testBit_shiftRight]
  split
  · simp_all
  · split
    · rw [show 256 + (i - 256) = i by omega]
      simp [hi, show i - 256 < 256 by omega]
    · rw [show 512 + (i - 256 - 256) = i by omega]
      simp [hi, show i - 256 - 256 < 1 by omega]

/-- R74: what each reachable sequencer word decodes to. -/
theorem decodeSeq_expand (t : BitVec 6) (h : 16 ≤ t.toNat) : decodeSeq (seqWord Machine.Phase.expand t) = .ok (.uexp t) := by
  simp [decodeSeq, h]

theorem decodeSeq_winit : decodeSeq (seqWord Machine.Phase.winit 0) = .ok .uwinit := by
  simp [decodeSeq]

theorem decodeSeq_round (t : BitVec 6) : decodeSeq (seqWord Machine.Phase.round t) = .ok (.urnd t) := by
  simp [decodeSeq]

theorem decodeSeq_acc : decodeSeq (seqWord Machine.Phase.acc 0) = .ok .uacc := by
  simp [decodeSeq]

/-- R74, R76: everything the sequencer decoder can answer. -/
theorem decodeSeq_cases (p : BitVec 3) (t : BitVec 6) {i : Instr} (h : decodeSeq (seqWord p t) = .ok i) :
    (p = Machine.Phase.expand ∧ 16 ≤ t.toNat ∧ i = .uexp t) ∨ (p = Machine.Phase.winit ∧ t = 0 ∧ i = .uwinit) ∨
    (p = Machine.Phase.round ∧ i = .urnd t) ∨ (p = Machine.Phase.acc ∧ t = 0 ∧ i = .uacc) := by
  simp only [decodeSeq, seqPhaseOf_seqWord, seqCounterOf_seqWord] at h
  split at h
  · split at h <;> simp at h
  · split at h
    · split at h <;> simp_all
    · split at h
      · split at h <;> simp_all
      · split at h
        · simp_all
        · split at h
          · split at h <;> simp_all
          · simp at h

end Sys2Proof
end

