-- ==== Sys2Proof/Laws/Driver.lean ====
section
/-! SUPPORT. The Padder always gives the Segmenter whole blocks (spec/45_host_driver.md R163, R164), so the driver never
faults. -/

namespace Sys2Proof.Machine

@[simp] theorem lengthField_length (l : Nat) : (lengthField l).length = 8 := by simp [lengthField]

/-- R163: the length of the padded message, from the number `z` of zero bits. -/
theorem padBytes_length (m : List Byte) :
    (padBytes m).length = m.length + 1 + zeroBits (8 * m.length % 512) / 8 + 8 := by
  simp [padBytes]; omega

/-- R163: the number of blocks is floor((L + 8) / 64) + 1. -/
theorem padBytes_length_eq (m : List Byte) : (padBytes m).length = 64 * ((m.length + 8) / 64 + 1) := by
  rw [padBytes_length]
  unfold zeroBits
  split <;> omega

theorem pad_eq_some {m : List Byte} (h : 8 * m.length < Config.messageBitLimit) : pad m = some (padBytes m) := by
  simp [pad, h]

theorem pad_eq_none {m : List Byte} (h : ¬8 * m.length < Config.messageBitLimit) : pad m = none := by
  simp [pad, h]

/-- R165: a buffer of whole blocks is segmented. -/
theorem segmentBlocks_of_dvd {p : List Byte} (h : p.length % 64 = 0) : segmentBlocks p =
    some ((List.range (p.length / 64)).map fun i => Vector.ofFn fun j : Fin 16 => segmentWord p i j.val) := by
  simp [segmentBlocks, h]

/-- R165, R168 step (1): a message within the limit has its blocks, n = floor((L + 8) / 64) + 1 of them. -/
theorem blocksOf_ok {m : List Byte} (h : 8 * m.length < Config.messageBitLimit) :
    ∃ bs, blocksOf m = .next bs ∧ segmentBlocks (padBytes m) = some bs ∧ bs.length = (m.length + 8) / 64 + 1 := by
  have hl := padBytes_length_eq m
  have hs := segmentBlocks_of_dvd (p := padBytes m) (by omega)
  refine ⟨_, ?_, hs, ?_⟩
  · simp [blocksOf, pad_eq_some h, hs]
  · simp [hl]

/-- R170: a longer message is refused. -/
theorem blocksOf_tooLong {m : List Byte} (h : ¬8 * m.length < Config.messageBitLimit) :
    blocksOf m = .refused .messageTooLong := by
  simp [blocksOf, pad_eq_none h]

end Sys2Proof.Machine
end

