-- ==== Sys2Proof/Laws/State.lean ====
section
/-! SUPPORT. One lemma per field of State per update (Machine/Ops.lean), so that no proof unfolds a record update. -/

namespace Sys2Proof.Machine

variable (s : State)

@[simp] theorem State.setH_H (x : Words8) : (s.setH x).H = x := rfl
@[simp] theorem State.setH_v (x : Words8) : (s.setH x).v = s.v := rfl
@[simp] theorem State.setH_W (x : Words8) : (s.setH x).W = s.W := rfl
@[simp] theorem State.setH_phase (x : Words8) : (s.setH x).phase = s.phase := rfl
@[simp] theorem State.setH_t (x : Words8) : (s.setH x).t = s.t := rfl
@[simp] theorem State.setH_host (x : Words8) : (s.setH x).host = s.host := rfl
@[simp] theorem State.setH_samples (x : Words8) : (s.setH x).samples = s.samples := rfl

@[simp] theorem State.setV_H (x : Words8) : (s.setV x).H = s.H := rfl
@[simp] theorem State.setV_v (x : Words8) : (s.setV x).v = x := rfl
@[simp] theorem State.setV_W (x : Words8) : (s.setV x).W = s.W := rfl
@[simp] theorem State.setV_phase (x : Words8) : (s.setV x).phase = s.phase := rfl
@[simp] theorem State.setV_t (x : Words8) : (s.setV x).t = s.t := rfl
@[simp] theorem State.setV_host (x : Words8) : (s.setV x).host = s.host := rfl
@[simp] theorem State.setV_samples (x : Words8) : (s.setV x).samples = s.samples := rfl

@[simp] theorem State.setW_H (x : Schedule) : (s.setW x).H = s.H := rfl
@[simp] theorem State.setW_v (x : Schedule) : (s.setW x).v = s.v := rfl
@[simp] theorem State.setW_W (x : Schedule) : (s.setW x).W = x := rfl
@[simp] theorem State.setW_phase (x : Schedule) : (s.setW x).phase = s.phase := rfl
@[simp] theorem State.setW_t (x : Schedule) : (s.setW x).t = s.t := rfl
@[simp] theorem State.setW_host (x : Schedule) : (s.setW x).host = s.host := rfl
@[simp] theorem State.setW_samples (x : Schedule) : (s.setW x).samples = s.samples := rfl

@[simp] theorem State.setSeq_H (p : BitVec 3) (n : BitVec 6) : (s.setSeq p n).H = s.H := rfl
@[simp] theorem State.setSeq_v (p : BitVec 3) (n : BitVec 6) : (s.setSeq p n).v = s.v := rfl
@[simp] theorem State.setSeq_W (p : BitVec 3) (n : BitVec 6) : (s.setSeq p n).W = s.W := rfl
@[simp] theorem State.setSeq_phase (p : BitVec 3) (n : BitVec 6) : (s.setSeq p n).phase = p := rfl
@[simp] theorem State.setSeq_t (p : BitVec 3) (n : BitVec 6) : (s.setSeq p n).t = n := rfl
@[simp] theorem State.setSeq_host (p : BitVec 3) (n : BitVec 6) : (s.setSeq p n).host = s.host := rfl
@[simp] theorem State.setSeq_samples (p : BitVec 3) (n : BitVec 6) : (s.setSeq p n).samples = s.samples := rfl

@[simp] theorem State.setT_H (n : BitVec 6) : (s.setT n).H = s.H := rfl
@[simp] theorem State.setT_v (n : BitVec 6) : (s.setT n).v = s.v := rfl
@[simp] theorem State.setT_W (n : BitVec 6) : (s.setT n).W = s.W := rfl
@[simp] theorem State.setT_phase (n : BitVec 6) : (s.setT n).phase = s.phase := rfl
@[simp] theorem State.setT_t (n : BitVec 6) : (s.setT n).t = n := rfl
@[simp] theorem State.setT_host (n : BitVec 6) : (s.setT n).host = s.host := rfl
@[simp] theorem State.setT_samples (n : BitVec 6) : (s.setT n).samples = s.samples := rfl

@[simp] theorem State.setHost_H (ms : List HostMove) : (s.setHost ms).H = s.H := rfl
@[simp] theorem State.setHost_v (ms : List HostMove) : (s.setHost ms).v = s.v := rfl
@[simp] theorem State.setHost_W (ms : List HostMove) : (s.setHost ms).W = s.W := rfl
@[simp] theorem State.setHost_phase (ms : List HostMove) : (s.setHost ms).phase = s.phase := rfl
@[simp] theorem State.setHost_t (ms : List HostMove) : (s.setHost ms).t = s.t := rfl
@[simp] theorem State.setHost_host (ms : List HostMove) : (s.setHost ms).host = ms := rfl
@[simp] theorem State.setHost_samples (ms : List HostMove) : (s.setHost ms).samples = s.samples := rfl

@[simp] theorem State.addSamples_H (xs : List Sample) : (s.addSamples xs).H = s.H := rfl
@[simp] theorem State.addSamples_v (xs : List Sample) : (s.addSamples xs).v = s.v := rfl
@[simp] theorem State.addSamples_W (xs : List Sample) : (s.addSamples xs).W = s.W := rfl
@[simp] theorem State.addSamples_phase (xs : List Sample) : (s.addSamples xs).phase = s.phase := rfl
@[simp] theorem State.addSamples_t (xs : List Sample) : (s.addSamples xs).t = s.t := rfl
@[simp] theorem State.addSamples_host (xs : List Sample) : (s.addSamples xs).host = s.host := rfl
@[simp] theorem State.addSamples_samples (xs : List Sample) : (s.addSamples xs).samples = s.samples ++ xs := rfl

/-! Each update as a record update, for goals that write one out (rewriting with these is quick; unfolding is not). -/

theorem State.setH_eq (x : Words8) : s.setH x = { s with H := x } := rfl
theorem State.setV_eq (x : Words8) : s.setV x = { s with v := x } := rfl
theorem State.setW_eq (x : Schedule) : s.setW x = { s with W := x } := rfl
theorem State.setSeq_eq (p : BitVec 3) (n : BitVec 6) : s.setSeq p n = { s with phase := p, t := n } := rfl
theorem State.setHost_eq (ms : List HostMove) : s.setHost ms = { s with host := ms } := rfl
theorem State.addSamples_eq (xs : List Sample) :
    s.addSamples xs = { s with samples := s.samples ++ xs } := rfl

@[simp] theorem State.resetEdge_H : s.resetEdge.H = IV := rfl
@[simp] theorem State.resetEdge_v : s.resetEdge.v = s.v := rfl
@[simp] theorem State.resetEdge_W : s.resetEdge.W = s.W := rfl
@[simp] theorem State.resetEdge_phase : s.resetEdge.phase = Phase.idle := rfl
@[simp] theorem State.resetEdge_t : s.resetEdge.t = 0 := rfl
@[simp] theorem State.resetEdge_host : s.resetEdge.host = s.host := rfl
@[simp] theorem State.resetEdge_samples : s.resetEdge.samples = s.samples := rfl

@[simp] theorem State.writeW_H (i : Fin 64) (x : Word) : (s.writeW i x).H = s.H := rfl
@[simp] theorem State.writeW_v (i : Fin 64) (x : Word) : (s.writeW i x).v = s.v := rfl
@[simp] theorem State.writeW_W (i : Fin 64) (x : Word) : (s.writeW i x).W = s.W.set i.val x i.isLt := rfl
@[simp] theorem State.writeW_phase (i : Fin 64) (x : Word) : (s.writeW i x).phase = s.phase := rfl
@[simp] theorem State.writeW_t (i : Fin 64) (x : Word) : (s.writeW i x).t = s.t := rfl
@[simp] theorem State.writeW_host (i : Fin 64) (x : Word) : (s.writeW i x).host = s.host := rfl
@[simp] theorem State.writeW_samples (i : Fin 64) (x : Word) : (s.writeW i x).samples = s.samples := rfl

section advance
variable (n : BitVec 6) (p : BitVec 3)

@[simp] theorem State.advance_H : (s.advance n p).H = s.H := by unfold advance; split <;> rfl
@[simp] theorem State.advance_v : (s.advance n p).v = s.v := by unfold advance; split <;> rfl
@[simp] theorem State.advance_W : (s.advance n p).W = s.W := by unfold advance; split <;> rfl
@[simp] theorem State.advance_phase : (s.advance n p).phase = if n = 63 then p else s.phase := by
  unfold advance; split <;> rfl
@[simp] theorem State.advance_t : (s.advance n p).t = if n = 63 then 0 else n + 1 := by
  unfold advance; split <;> rfl
@[simp] theorem State.advance_host : (s.advance n p).host = s.host := by unfold advance; split <;> rfl
@[simp] theorem State.advance_samples : (s.advance n p).samples = s.samples := by unfold advance; split <;> rfl

end advance

/-- R32: `cmd_ready` is a function of `phase` alone. -/
theorem State.cmdReady_iff : s.cmdReady = true ↔ s.phase = Phase.idle := by simp [State.cmdReady]

/-- R32, the other value. -/
theorem State.cmdReady_false_iff : s.cmdReady = false ↔ s.phase ≠ Phase.idle := by simp [State.cmdReady]

/-- R33: `digest` is a function of `H` alone. -/
theorem State.digest_congr {s u : State} (h : s.H = u.H) : s.digest = u.digest := by
  unfold State.digest; rw [h]

end Sys2Proof.Machine
end

