-- ==== Sys2Proof/Laws/Exec.lean ====
section
/-! SUPPORT. What each meaning answers, and that no instruction touches the host's part of the state. -/

namespace Sys2Proof.Machine

variable (s : State)

theorem execInit_ready (h : s.phase = Phase.idle) : execInit s = .next s.resetEdge := by
  simp [execInit, (State.cmdReady_iff s).2 h, State.resetEdge]

theorem execInit_busy (h : s.phase ≠ Phase.idle) : execInit s = .next s := by
  simp [execInit, (State.cmdReady_false_iff s).2 h]

theorem execCompress_ready (b : Block) (h : s.phase = Phase.idle) :
    execCompress b s = .next ((s.setW (loadBlock s.W (blockWords b))).setSeq Phase.expand 16) := by
  simp [execCompress, (State.cmdReady_iff s).2 h]

theorem execCompress_busy (b : Block) (h : s.phase ≠ Phase.idle) : execCompress b s = .next s := by
  simp [execCompress, (State.cmdReady_false_iff s).2 h]

theorem execUexp_of_le (t : BitVec 6) (h : 16 ≤ t.toNat) : execUexp t s =
    .next ((s.writeW (counterIndex t) (expandWord s.W (counterIndex t))).advance t Phase.winit) := by
  simp [execUexp, h]

/-- Every meaning answers a next state, but for `UEXP` on an operand below 16. -/
theorem exec_next (i : Instr) (h : i.wellFormed = true) : ∃ u, exec i s = .next u := by
  cases i with
  | init => unfold exec execInit; dsimp only; split <;> exact ⟨_, rfl⟩
  | compress b => unfold exec execCompress; dsimp only; split <;> exact ⟨_, rfl⟩
  | uexp t => exact ⟨_, execUexp_of_le s t (by simpa [Instr.wellFormed] using h)⟩
  | uwinit => exact ⟨_, rfl⟩
  | urnd t => exact ⟨_, rfl⟩
  | uacc => exact ⟨_, rfl⟩

/-- No instruction touches the host's moves or samples. -/
theorem exec_host {i : Instr} {s u : State} (h : exec i s = .next u) : u.host = s.host ∧ u.samples = s.samples := by
  cases i with
  | init =>
    simp only [exec, execInit] at h
    split at h <;> rw [← Host.Outcome.next.inj h] <;> simp
  | compress b =>
    simp only [exec, execCompress] at h
    split at h <;> rw [← Host.Outcome.next.inj h] <;> simp
  | uexp t =>
    simp only [exec, execUexp] at h
    split at h
    · rw [← Host.Outcome.next.inj h]; simp
    · simp at h
  | uwinit =>
    simp only [exec, execUwinit] at h
    rw [← Host.Outcome.next.inj h]; simp
  | urnd t =>
    simp only [exec, execUrnd] at h
    rw [← Host.Outcome.next.inj h]; simp
  | uacc =>
    simp only [exec, execUacc] at h
    rw [← Host.Outcome.next.inj h]; simp

/-- No meaning faults. -/
theorem exec_not_fault (i : Instr) (f : Fault) : exec i s ≠ .fault f := by
  cases i <;> simp only [exec, execInit, execCompress, execUexp, execUwinit, execUrnd, execUacc] <;>
    first | (split <;> simp) | simp

end Sys2Proof.Machine
end

