-- ==== Sys2Proof/Laws/HostTurn.lean ====
section
/-! SUPPORT. What the host's turn can answer, said once. -/

namespace Sys2Proof.Machine

variable (ready : Bool) (dig : Digest)

/-- Everything `afterSample` can do with a next turn. -/
theorem afterSample_eq_next {x : Sample} {o : Host.Outcome Turn Fault Refusal} {turn : Turn} :
    afterSample x o = .next turn ↔ ∃ y, o = .next y ∧ turn = { y with samples := x :: y.samples } := by
  cases o <;> simp [afterSample, eq_comm]

@[simp] theorem afterSample_eq_fault {x : Sample} {o : Host.Outcome Turn Fault Refusal} {f : Fault} :
    afterSample x o = .fault f ↔ o = .fault f := by cases o <;> simp [afterSample]

@[simp] theorem afterSample_eq_refused {x : Sample} {o : Host.Outcome Turn Fault Refusal} {e : Refusal} :
    afterSample x o = .refused e ↔ o = .refused e := by cases o <;> simp [afterSample]

/-- R57, R60: whatever the host samples at an edge is what the two ports show at that edge. -/
theorem hostTurn_samples {ms : List HostMove} {turn : Turn} (h : hostTurn ready dig ms = .next turn) :
    ∀ x ∈ turn.samples, x.ready = ready ∧ x.digest = dig := by
  induction ms generalizing turn with
  | nil => cases h; simp
  | cons m r ih =>
    cases m with
    | drive p => cases h; simp
    | reset => cases h; simp
    | offer w => cases h; simp
    | wait =>
      simp only [hostTurn] at h
      split at h
      · exact ih h
      · cases h; simp
    | digest d =>
      simp only [hostTurn] at h
      split at h
      · obtain ⟨y, hy, rfl⟩ := afterSample_eq_next.1 h
        exact List.forall_mem_cons.2 ⟨⟨rfl, rfl⟩, ih hy⟩
      · cases h; simp
    | sample d =>
      obtain ⟨y, hy, rfl⟩ := afterSample_eq_next.1 h
      exact List.forall_mem_cons.2 ⟨⟨rfl, rfl⟩, ih hy⟩
    | hash msg d =>
      simp only [hostTurn] at h
      split at h
      · split at h <;> cases h <;> simp
      · simp at h
      · simp at h

/-- The host's turn never faults: the Padder's buffer is always whole blocks (R171). -/
theorem hostTurn_not_fault (ms : List HostMove) (f : Fault) : hostTurn ready dig ms ≠ .fault f := by
  induction ms with
  | nil => simp [hostTurn]
  | cons m r ih =>
    cases m with
    | drive p => simp [hostTurn]
    | reset => simp [hostTurn]
    | offer w => simp [hostTurn]
    | wait => simp only [hostTurn]; split <;> simp_all
    | digest d =>
      simp only [hostTurn]
      split
      · simpa using ih
      · simp
    | sample d => simpa [hostTurn] using ih
    | hash msg d =>
      simp only [hostTurn]
      by_cases hl : 8 * msg.length < Config.messageBitLimit
      · obtain ⟨bs, hb, -⟩ := blocksOf_ok hl
        rw [hb]; dsimp only; split <;> simp
      · rw [blocksOf_tooLong hl]; simp

/-- R170: the host's turn is refused only for a message of 2^64 bits or more among its moves. -/
theorem hostTurn_refused {ms : List HostMove} {e : Refusal} (h : hostTurn ready dig ms = .refused e) :
    e = .messageTooLong ∧ ∃ msg d, HostMove.hash msg d ∈ ms ∧ ¬8 * msg.length < Config.messageBitLimit := by
  induction ms with
  | nil => simp [hostTurn] at h
  | cons m r ih =>
    cases m with
    | drive p => simp [hostTurn] at h
    | reset => simp [hostTurn] at h
    | offer w => simp [hostTurn] at h
    | wait =>
      simp only [hostTurn] at h
      split at h
      · obtain ⟨he, msg, d, hm, hl⟩ := ih h
        exact ⟨he, msg, d, List.mem_cons_of_mem _ hm, hl⟩
      · simp at h
    | digest d =>
      simp only [hostTurn] at h
      split at h
      · obtain ⟨he, msg, d', hm, hl⟩ := ih (afterSample_eq_refused.1 h)
        exact ⟨he, msg, d', List.mem_cons_of_mem _ hm, hl⟩
      · simp at h
    | sample d =>
      obtain ⟨he, msg, d', hm, hl⟩ := ih (afterSample_eq_refused.1 h)
      exact ⟨he, msg, d', List.mem_cons_of_mem _ hm, hl⟩
    | hash msg d =>
      simp only [hostTurn] at h
      by_cases hl : 8 * msg.length < Config.messageBitLimit
      · obtain ⟨bs, hb, -⟩ := blocksOf_ok hl
        rw [hb] at h; dsimp only at h; split at h <;> simp at h
      · rw [blocksOf_tooLong hl] at h
        cases h
        exact ⟨rfl, msg, d, List.mem_cons_self .., hl⟩

/-- A property of moves that `WAIT`, offers and `DIGEST` have survives the host's turn: the rest of the moves are old ones,
or the expansion of a `HASH` (R78). -/
theorem hostTurn_rest {P : HostMove → Prop} (hw : P .wait) (ho : ∀ w, P (.offer w)) (hd : ∀ d, P (.digest d))
    {ms : List HostMove} {turn : Turn} (h : hostTurn ready dig ms = .next turn) (hp : ∀ m ∈ ms, P m) :
    ∀ m ∈ turn.rest, P m := by
  induction ms generalizing turn with
  | nil => cases h; simp
  | cons m r ih =>
    have hr : ∀ m ∈ r, P m := fun m hm => hp m (List.mem_cons_of_mem _ hm)
    cases m with
    | drive p => cases h; exact hr
    | reset => cases h; exact hr
    | offer w =>
      cases h
      dsimp only
      split
      · exact hr
      · exact hp
    | wait =>
      simp only [hostTurn] at h
      split at h
      · exact ih h hr
      · cases h; exact hp
    | digest d =>
      simp only [hostTurn] at h
      split at h
      · obtain ⟨y, hy, rfl⟩ := afterSample_eq_next.1 h
        have hrest := ih hy hr
        exact hrest
      · cases h; exact hp
    | sample d =>
      obtain ⟨y, hy, rfl⟩ := afterSample_eq_next.1 h
      have hrest := ih hy hr
      exact hrest
    | hash msg d =>
      simp only [hostTurn] at h
      split at h
      · split at h
        · cases h
          intro m hm
          simp only [hashMoves, List.mem_append, List.mem_flatMap, List.mem_cons, List.not_mem_nil, or_false] at hm
          rcases hm with (⟨b, _, rfl | rfl⟩ | rfl) | hm
          · exact hw
          · exact ho _
          · exact hd _
          · exact hr m hm
        · cases h; exact hp
      · simp at h
      · simp at h

end Sys2Proof.Machine
end

