-- ==== Sys2Proof/Laws/Instances.lean ====
section
/-! SUPPORT. What a system of several instances can do, said once. -/

namespace Sys2Proof.Machine

variable {n : NCores}

/-- R190: every instance after reset. -/
@[simp] theorem System.reset_getElem (n : NCores) (j : Nat) (h : j < n.val) : (System.reset n)[j] = State.reset := by
  simp [System.reset]

/-- Everything a step of instance `i` can do when it answers a next system: `i` steps, the others stay. -/
theorem System.stepAt_eq_next {sys x : System n} {i : Fin n.val} :
    sys.stepAt i = .next x ↔ ∃ u, step sys[i] = .next u ∧ x = sys.set i.val u i.isLt := by
  unfold System.stepAt
  cases step sys[i] <;> simp [eq_comm]

@[simp] theorem System.run_nil (sys : System n) : System.run [] sys = .next sys := rfl

/-- An interleaving is its first step and the rest of it. -/
theorem System.run_cons_eq_next {sys x : System n} {i : Fin n.val} {is : List (Fin n.val)} :
    System.run (i :: is) sys = .next x ↔ ∃ y, sys.stepAt i = .next y ∧ System.run is y = .next x := by
  rw [System.run]
  cases sys.stepAt i <;> simp

end Sys2Proof.Machine
end

