-- ==== Sys2Proof/Laws/PerInstr.lean ====
section
/-! SUPPORT. The family `MatchesRow`: the word of a well-formed instruction meets the match and mask of its row of
spec/opcode_table.json, as spec/30_encoding.md R74 writes them. -/

namespace Sys2Proof.Laws

/-- R74: the match and mask of the instruction's row, on its command word or its sequencer word. -/
def MatchesRow.Statement (i : Instr) : Prop :=
  i.wellFormed = true →
    match i with
    | .init => ∃ w, encode i = .cmd w ∧ w &&& BitVec.twoPow 513 512 = 0
    | .compress _ => ∃ w, encode i = .cmd w ∧ w &&& BitVec.twoPow 513 512 = BitVec.twoPow 513 512
    | .uexp _ => ∃ w, encode i = .seq w ∧ w &&& 0x1c0 = 0x040 ∧ w &&& 0x030 ≠ 0
    | .uwinit => ∃ w, encode i = .seq w ∧ w &&& 0x1ff = 0x080
    | .urnd _ => ∃ w, encode i = .seq w ∧ w &&& 0x1c0 = 0x0c0
    | .uacc => ∃ w, encode i = .seq w ∧ w &&& 0x1ff = 0x100

/-- What the mask of a command word leaves. -/
theorem cmdWord_and_mask (op : BitVec 1) (b : Block) :
    cmdWord op b &&& BitVec.twoPow 513 512 = if op = 1 then BitVec.twoPow 513 512 else 0 := by
  apply BitVec.eq_of_getLsbD_eq
  intro i hi
  rw [BitVec.getLsbD_and, BitVec.getLsbD_twoPow]
  by_cases h : i = 512
  · subst h
    have e : (cmdWord op b).getLsbD 512 = op.getLsbD 0 := by
      rw [cmdWord, BitVec.getLsbD_append, if_neg (by decide)]
    rw [e]
    rcases bit_zero_or_one op with rfl | rfl <;> simp
  · have h' : ¬512 = i := fun hc => h hc.symm
    rcases bit_zero_or_one op with rfl | rfl <;> simp [h']

theorem MatchesRow.init : MatchesRow.Statement .init :=
  fun _ => ⟨_, rfl, (cmdWord_and_mask 0 0).trans (if_neg (by decide))⟩

theorem MatchesRow.compress (block : Block) : MatchesRow.Statement (.compress block) :=
  fun _ => ⟨_, rfl, (cmdWord_and_mask 1 block).trans (if_pos rfl)⟩

/-- The three masks of the looping micro-operations' words, for every counter. -/
theorem seqWord_masks : ∀ t : BitVec 6,
    seqWord Machine.Phase.expand t &&& 0x1c0 = 0x040 ∧
    (16 ≤ t.toNat → seqWord Machine.Phase.expand t &&& 0x030 ≠ 0) ∧
    seqWord Machine.Phase.round t &&& 0x1c0 = 0x0c0 := by decide

theorem MatchesRow.uexp (t : BitVec 6) : MatchesRow.Statement (.uexp t) :=
  fun h => ⟨_, rfl, (seqWord_masks t).1, (seqWord_masks t).2.1 (of_decide_eq_true h)⟩

theorem MatchesRow.uwinit : MatchesRow.Statement .uwinit := fun _ => ⟨_, rfl, rfl⟩

theorem MatchesRow.urnd (t : BitVec 6) : MatchesRow.Statement (.urnd t) := fun _ => ⟨_, rfl, (seqWord_masks t).2.2⟩

theorem MatchesRow.uacc : MatchesRow.Statement .uacc := fun _ => ⟨_, rfl, rfl⟩

end Sys2Proof.Laws
end

