-- ==== Sys2Proof/Laws/Run.lean ====
section
/-! SUPPORT. Runs of many edges: the host's own `Core.run` of this machine, and how runs are put together. -/

namespace Sys2Proof.Machine

/-- `run` is the host's `Core.run` of this machine. -/
theorem run_eq_core_run (k : Nat) (s : State) : Host.Core.run Sys2Proof.core k s = run k s := by
  induction k generalizing s with
  | zero => rfl
  | succ k ih =>
    have e := Host.Core.run.eq_2 Sys2Proof.core s k
    cases h : step s with
    | next u =>
      rw [show Sys2Proof.core.step s = .next u from h] at e
      simp only [run, h]
      exact e.trans (ih u)
    | fault f =>
      rw [show Sys2Proof.core.step s = .fault f from h] at e
      simp only [run, h]
      exact e
    | refused r =>
      rw [show Sys2Proof.core.step s = .refused r from h] at e
      simp only [run, h]
      exact e

@[simp] theorem run_zero (s : State) : run 0 s = .next s := rfl

theorem run_succ_of_step {s u : State} (h : step s = .next u) (k : Nat) : run (k + 1) s = run k u := by
  simp [run, h]

/-- A run of `j + k` edges whose first `j` answer `u` goes on from `u`. -/
theorem run_add {j : Nat} {s u : State} (h : run j s = .next u) (k : Nat) : run (j + k) s = run k u := by
  induction j generalizing s with
  | zero => cases h; simp
  | succ j ih =>
    cases hs : step s with
    | next a =>
      rw [run_succ_of_step hs] at h
      rw [show j + 1 + k = (j + k) + 1 by omega, run_succ_of_step hs, ih h]
    | fault f => simp [run, hs] at h
    | refused r => simp [run, hs] at h

/-- An induction over runs, packaged once: what every step keeps, every run keeps. -/
theorem run_keeps {P : State → Prop} (hstep : ∀ a b, P a → step a = .next b → P b) {k : Nat} {s u : State}
    (hs : P s) (h : run k s = .next u) : P u := by
  induction k generalizing s with
  | zero => cases h; exact hs
  | succ k ih =>
    cases ha : step s with
    | next a => rw [run_succ_of_step ha] at h; exact ih (hstep s a hs ha) h
    | fault f => simp [run, ha] at h
    | refused r => simp [run, ha] at h

/-- Two runs from related states stay related, when every step keeps the relation (and stops alike). -/
theorem run_agree {R : State → State → Prop} (hstep : ∀ a b, R a b → OutcomesAgree R (step a) (step b)) (k : Nat)
    {s u : State} (h : R s u) : OutcomesAgree R (run k s) (run k u) := by
  induction k generalizing s u with
  | zero => exact h
  | succ k ih =>
    have hsu := hstep s u h
    unfold run
    cases ha : step s <;> cases hb : step u <;> rw [ha, hb] at hsu <;>
      first | exact ih hsu | exact hsu.elim | exact hsu

end Sys2Proof.Machine
end

