-- ==== Sys2Proof/Laws/Step.lean ====
section
/-! SUPPORT. What one clock edge can do, said once: each row of spec/41_commands.md R116, and the inversion of `step`. -/

namespace Sys2Proof.Machine

variable (s : State) (p : Pins)

/-- R183: `rst` = 1 wins over everything. -/
theorem edge_reset (h : p.rst = true) : edge p s = .next s.resetEdge := by simp [edge, h]

theorem seq_eq_zero_iff : s.seq = 0 ↔ s.Idle := seqWord_eq_zero_iff s.phase s.t

/-- R116 row 2: idle with no command offered. -/
theorem edge_idle (hr : p.rst = false) (hi : s.Idle) (hv : p.cmdValid = false) : edge p s = .next s := by
  simp [edge, select, hr, (seq_eq_zero_iff s).2 hi, hv]

/-- R116 rows 3 and 4: idle with a command offered. -/
theorem edge_command (hr : p.rst = false) (hi : s.Idle) (hv : p.cmdValid = true) :
    edge p s = exec (decodeCmd p.cmd) s := by
  simp [edge, select, hr, (seq_eq_zero_iff s).2 hi, hv, Pins.cmd, decodeCmd_eq_decodePort]

/-- R116 rows 5 to 10: the micro-operation that the sequencer word selects, whatever is on the command port. -/
theorem edge_uop {i : Instr} (hr : p.rst = false) (hd : decodeSeq s.seq = .ok i) : edge p s = exec i s := by
  have hz : s.seq ≠ 0 := by
    intro h
    rw [h, show decodeSeq 0 = .error .idleWord from rfl] at hd
    cases hd
  simp only [edge, hr, Bool.false_eq_true, if_false, select, if_neg hz, hd]

/-- R76: any other sequencer word is refused. -/
theorem edge_unreachable {e : DecodeReject} (hr : p.rst = false) (hz : s.seq ≠ 0) (hd : decodeSeq s.seq = .error e) :
    edge p s = .refused (.unreachableSequencerWord s.seq) := by
  simp only [edge, hr, Bool.false_eq_true, if_false, select, if_neg hz, hd]

/-- The state of CORE with the host's turn taken. -/
def State.afterTurn (turn : Turn) : State := (s.setHost turn.rest).addSamples turn.samples

@[simp] theorem State.afterTurn_H (turn : Turn) : (s.afterTurn turn).H = s.H := rfl
@[simp] theorem State.afterTurn_v (turn : Turn) : (s.afterTurn turn).v = s.v := rfl
@[simp] theorem State.afterTurn_W (turn : Turn) : (s.afterTurn turn).W = s.W := rfl
@[simp] theorem State.afterTurn_phase (turn : Turn) : (s.afterTurn turn).phase = s.phase := rfl
@[simp] theorem State.afterTurn_t (turn : Turn) : (s.afterTurn turn).t = s.t := rfl
@[simp] theorem State.afterTurn_seq (turn : Turn) : (s.afterTurn turn).seq = s.seq := rfl
@[simp] theorem State.afterTurn_host (turn : Turn) : (s.afterTurn turn).host = turn.rest := rfl
@[simp] theorem State.afterTurn_samples (turn : Turn) : (s.afterTurn turn).samples = s.samples ++ turn.samples := rfl

/-- `step` is the host's turn and then CORE's edge. -/
theorem step_of_turn {s : State} {turn : Turn} (h : hostTurn s.cmdReady s.digest s.host = .next turn) :
    step s = edge turn.pins (s.afterTurn turn) := by
  unfold step stepEdge
  rw [h]
  rfl

theorem step_of_refused_turn {s : State} {e : Refusal} (h : hostTurn s.cmdReady s.digest s.host = .refused e) :
    step s = .refused e := by
  unfold step stepEdge
  rw [h]

/-- Everything a step can do: a reset edge, an idle edge, an accepted command, or one micro-operation. -/
theorem step_cases {s u : State} (h : step s = .next u) :
    ∃ turn, hostTurn s.cmdReady s.digest s.host = .next turn ∧
      ((turn.pins.rst = true ∧ u = (s.afterTurn turn).resetEdge) ∨
       (turn.pins.rst = false ∧ s.Idle ∧ turn.pins.cmdValid = false ∧ u = s.afterTurn turn) ∨
       (turn.pins.rst = false ∧ s.Idle ∧ turn.pins.cmdValid = true ∧ turn.pins.cmdOp = 0 ∧
         u = (s.afterTurn turn).resetEdge) ∨
       (turn.pins.rst = false ∧ s.Idle ∧ turn.pins.cmdValid = true ∧ turn.pins.cmdOp = 1 ∧
         u = ((s.afterTurn turn).setW (loadBlock s.W (blockWords turn.pins.cmdBlock))).setSeq Phase.expand 16) ∨
       (turn.pins.rst = false ∧ s.phase = Phase.expand ∧ 16 ≤ s.t.toNat ∧
         u = ((s.afterTurn turn).writeW (counterIndex s.t) (expandWord s.W (counterIndex s.t))).advance s.t Phase.winit) ∨
       (turn.pins.rst = false ∧ s.phase = Phase.winit ∧ s.t = 0 ∧
         u = ((s.afterTurn turn).setV s.H).setSeq Phase.round 0) ∨
       (turn.pins.rst = false ∧ s.phase = Phase.round ∧
         u = ((s.afterTurn turn).setV (mixRound s.v (K (counterIndex s.t)) s.W[counterIndex s.t])).advance s.t Phase.acc) ∨
       (turn.pins.rst = false ∧ s.phase = Phase.acc ∧ s.t = 0 ∧
         u = ((s.afterTurn turn).setH (addWords s.H s.v)).setSeq Phase.idle 0)) := by
  cases ht : hostTurn s.cmdReady s.digest s.host with
  | fault f => exact absurd ht (hostTurn_not_fault _ _ _ f)
  | refused e => rw [step_of_refused_turn ht] at h; cases h
  | next turn =>
    refine ⟨turn, rfl, ?_⟩
    rw [step_of_turn ht] at h
    cases hr : turn.pins.rst with
    | true =>
      rw [edge_reset _ _ hr] at h
      exact .inl ⟨rfl, (Host.Outcome.next.inj h).symm⟩
    | false =>
      right
      by_cases hi : s.Idle
      · have hi' : (s.afterTurn turn).Idle := hi
        cases hv : turn.pins.cmdValid with
        | false =>
          rw [edge_idle _ _ hr hi' hv] at h
          exact .inl ⟨rfl, hi, rfl, (Host.Outcome.next.inj h).symm⟩
        | true =>
          right
          rw [edge_command _ _ hr hi' hv, Pins.cmd, decodeCmd_cmdWord] at h
          rcases bit_zero_or_one turn.pins.cmdOp with ho | ho
          · rw [if_pos ho, exec, execInit_ready _ hi'.1] at h
            exact .inl ⟨rfl, hi, rfl, ho, (Host.Outcome.next.inj h).symm⟩
          · rw [if_neg (by rw [ho]; decide), exec, execCompress_ready _ _ hi'.1] at h
            exact .inr (.inl ⟨rfl, hi, rfl, ho, (Host.Outcome.next.inj h).symm⟩)
      · right; right; right
        have hz : (s.afterTurn turn).seq ≠ 0 := fun h0 => hi ((seq_eq_zero_iff _).1 h0)
        cases hd : decodeSeq (s.afterTurn turn).seq with
        | error e => rw [edge_unreachable _ _ hr hz hd] at h; cases h
        | ok i =>
          rw [edge_uop _ _ hr hd] at h
          rcases decodeSeq_cases _ _ hd with ⟨hp, h16, rfl⟩ | ⟨hp, h0, rfl⟩ | ⟨hp, rfl⟩ | ⟨hp, h0, rfl⟩
          · rw [exec, execUexp_of_le _ _ h16] at h
            exact .inl ⟨rfl, hp, h16, (Host.Outcome.next.inj h).symm⟩
          · exact .inr (.inl ⟨rfl, hp, h0, (Host.Outcome.next.inj h).symm⟩)
          · exact .inr (.inr (.inl ⟨rfl, hp, (Host.Outcome.next.inj h).symm⟩))
          · exact .inr (.inr (.inr ⟨rfl, hp, h0, (Host.Outcome.next.inj h).symm⟩))

end Sys2Proof.Machine
end

