-- ==== Sys2Proof/Tests/Slice0.lean ====
section
/-! SUPPORT. Tests of the model on fixed values, each expected value taken from the spec's text (the rule or the section of
spec/95_test_vectors.md is named), and for every statement with hypotheses a concrete input that meets all of them. -/

namespace Sys2Proof.Tests
open Sys2Proof.Machine

/- One declaration at a time: the threads' stacks then stay small. -/
set_option Elab.async false

/-! ### The decoder, on words written out from the formats of spec/30_encoding.md R71, R72, R74 -/

/-- R75: `op` = 0 with all block bits 1 is `INIT`. -/
theorem test_decode_init : decode (.cmd (BitVec.ofNat 513 (2 ^ 512 - 1))) = .ok .init := by decide +kernel

/-- R71: `op` in bit 512, block word 0 in bits 511 to 480, block word 15 in bits 31 to 0. -/
theorem test_decode_compress : decode (.cmd (BitVec.ofNat 513 (2 ^ 512 + 0x61626380 * 2 ^ 480 + 0x18))) =
    .ok (.compress (packBlock #v[0x61626380, 0, 0, 0, 0, 0, 0, 0, 0, 0, 0, 0, 0, 0, 0, 0x18])) := by decide +kernel

theorem test_decode_uexp : decode (.seq 0b001010001) = .ok (.uexp 17) := by decide
theorem test_decode_uwinit : decode (.seq 0b010000000) = .ok .uwinit := by decide
theorem test_decode_urnd : decode (.seq 0b011111111) = .ok (.urnd 63) := by decide
theorem test_decode_uacc : decode (.seq 0b100000000) = .ok .uacc := by decide

/-- R76: each kind of sequencer word that is no micro-operation is rejected under its own name. -/
theorem test_decode_rejects :
    decode (.seq 0b000000000) = .error .idleWord ∧ decode (.seq 0b000000001) = .error .idleCounterNotZero ∧
    decode (.seq 0b001001111) = .error .expandCounterBelow16 ∧ decode (.seq 0b010000001) = .error .winitCounterNotZero ∧
    decode (.seq 0b100000001) = .error .accCounterNotZero ∧ decode (.seq 0b101000000) = .error .unusedPhase := by decide

/-- The table's numbering (R74): a `UOP` word in two bytes, a `CMD` word in 65; a bit outside the format is no word. -/
theorem test_table_words :
    decodeTableWord 16 0x0c5 = some (.urnd 5) ∧ decodeTableWord 16 0x200 = none ∧ decodeTableWord 520 0 = some .init := by
  decide

/-- The words met in one `COMPRESS` (spec/95_test_vectors.md section 3.7): `050` to `07f`, `080`, `0c0` to `0ff`, `100`. -/
theorem test_words_of_one_compress :
    ((List.range 512).filter fun n => (decodeSeq (BitVec.ofNat 9 n)).toBool) =
      List.range' 0x050 48 ++ [0x080] ++ List.range' 0x0c0 64 ++ [0x100] := by decide +kernel

/-! ### WellFormed: the one check there is (R74, R76) -/

theorem test_wellFormed_refuses_uexp_below_16 : Instr.wellFormed (.uexp 15) = false := by decide
theorem test_wellFormed_takes_uexp_16 : Instr.wellFormed (.uexp 16) = true := by decide

/-! ### Word functions: the examples of spec/40_primitives.md R91 to R98 -/

theorem test_rotr : rotr 0x12345678 7 = 0xf02468ac ∧ rotr 1 7 = 0x02000000 := by decide
theorem test_shr : shr 0x12345678 3 = 0x02468acf ∧ shr 0x80000000 3 = 0x10000000 := by decide
theorem test_ssig0 : ssig0 0x12345678 = 0xe7fce6ee ∧ ssig0 0x80000000 = 0x11002000 := by decide
theorem test_ssig1 : ssig1 0x18 = 0x000f0000 ∧ ssig1 0x80000000 = 0x00205000 := by decide
theorem test_bsig0 : bsig0 0x6a09e667 = 0xce20b47e ∧ bsig0 1 = 0x40080400 := by decide
theorem test_bsig1 : bsig1 0x510e527f = 0x3587272b ∧ bsig1 1 = 0x04200080 := by decide
theorem test_ch : ch 0x510e527f 0x9b05688c 0x1f83d9ab = 0x1f85c98c := by decide
theorem test_maj : maj 0x6a09e667 0xbb67ae85 0x3c6ef372 = 0x3a6fe667 := by decide

/-! ### One step of each instruction -/

/-- The block of "abc" (spec/95_test_vectors.md section 3.1). -/
def abcWords : BlockWords := #v[0x61626380, 0, 0, 0, 0, 0, 0, 0, 0, 0, 0, 0, 0, 0, 0, 0x18]

/-- The digest of "abc" as words. -/
def abcHash : Words8 :=
  #v[0xba7816bf, 0x8f01cfea, 0x414140de, 0x5dae2223, 0xb00361a3, 0x96177a9c, 0xb410ff61, 0xf20015ad]

/-- A state at a point of the sequencer, the rest as after reset. -/
def at' (phase : BitVec 3) (t : BitVec 6) : State := State.reset.setSeq phase t

/-- A property of the next state; false where there is none. -/
def holds (o : Host.Outcome State Fault Refusal) (p : State → Bool) : Bool :=
  match o with
  | .next s => p s
  | .fault _ => false
  | .refused _ => false

/-- Section 3.7, row 3 with its numbers. -/
theorem test_init : holds (exec .init (State.reset.setH abcHash)) (fun s => s.H == IV && s.phase == 0 && s.t == 0) := by
  decide

/-- Section 3.7, row 4 and R112's example. -/
theorem test_compress : holds (exec (.compress (packBlock abcWords)) State.reset) (fun s =>
    s.W[0] == 0x61626380 && s.W[14] == 0 && s.W[15] == 0x18 && s.phase == 1 && s.t == 16 && !s.cmdReady) := by
  decide +kernel

/-- R131's example: `UEXP` at 18 reads `W[16]`, `W[11]`, `W[3]`, `W[2]`. -/
theorem test_uexp : holds (exec (.uexp 18) ((at' 1 18).writeW 16 0x61626380)) (fun s =>
    s.W[18] == 0x7da86405 && s.W[16] == 0x61626380 && s.phase == 1 && s.t == 19) := by decide +kernel

/-- Section 3.7, row 6. -/
theorem test_uexp_last : holds (exec (.uexp 63) (at' 1 63)) (fun s => s.phase == 2 && s.t == 0) := by decide +kernel

/-- R141's example; section 3.7, row 7. -/
theorem test_uwinit : holds (exec .uwinit (at' 2 0)) (fun s =>
    s.v[0] == 0x6a09e667 && s.v[7] == 0x5be0cd19 && s.phase == 3 && s.t == 0) := by decide

/-- R142's example: round 0 of the block of "abc". -/
theorem test_urnd : holds (exec (.urnd 0) (((at' 3 0).setV IV).writeW 0 0x61626380)) (fun s =>
    s.v == #v[0x5d6aebcd, 0x6a09e667, 0xbb67ae85, 0x3c6ef372, 0xfa2a4622, 0x510e527f, 0x9b05688c, 0x1f83d9ab] &&
    s.phase == 3 && s.t == 1) := by decide +kernel

/-- Section 3.7, row 8. -/
theorem test_urnd_last : holds (exec (.urnd 63) (at' 3 63)) (fun s => s.phase == 4 && s.t == 0) := by decide +kernel

/-- R151's example: the block of "abc", words 1, 3 and 5 wrap. -/
theorem test_uacc : holds (exec .uacc ((at' 4 0).setV
      #v[0x506e3058, 0xd39a2165, 0x04d24d6c, 0xb85e2ce9, 0x5ef50f24, 0xfb121210, 0x948d25b6, 0x961f4894])) (fun s =>
    s.H == abcHash && s.phase == 0 && s.t == 0 && s.cmdReady) := by decide +kernel

/-- Section 3.7, row 10: reset in the middle of a `COMPRESS`. -/
theorem test_reset_mid_command : holds (step (((at' 3 20).setH abcHash).setHost [.reset])) (fun s =>
    s.H == IV && s.phase == 0 && s.t == 0) := by decide

/-- Section 3.7, row 11: reset wins over an offered command; `W` is not loaded. -/
theorem test_reset_wins : holds (step (State.reset.setHost [.drive ⟨true, true, 1, 1⟩])) (fun s =>
    s.H == IV && s.phase == 0 && s.W[15] == 0) := by decide

/-- Section 3.7, row 5: a command offered while the core is busy waits, and the step is `UEXP`. -/
theorem test_busy_offer : holds (step ((at' 1 16).setHost [.offer 0])) (fun s =>
    s.phase == 1 && s.t == 17 && s.host == [.offer 0] && s.H == IV) := by decide +kernel

/-- spec/20_memory.md R57, R60: sampled while busy the ports show `cmd_ready` = 0 and the Hash State from before the command,
here at the edge of `UACC`, whose sum is not there yet; the step is `UACC` all the same. -/
theorem test_busy_sample : holds (step (((at' 4 0).setV abcHash).setHost [.sample ['d']])) (fun s =>
    s.samples == [⟨['d'], false, 0x6a09e667bb67ae853c6ef372a54ff53a510e527f9b05688c1f83d9ab5be0cd19⟩] &&
    s.phase == 0 && s.host == [] && s.H != IV) := by decide +kernel

/-! ### The host's stages -/

/-- spec/95_test_vectors.md section 5: padded lengths of messages of 0, 55, 56, 119 and 120 bytes. -/
theorem test_pad_lengths : [0, 55, 56, 119, 120].map (fun n => (padBytes (List.replicate n 0x61)).length) =
    [64, 64, 128, 128, 192] := by decide +kernel

/-- Section 3.1: the one block of "abc". -/
theorem test_segment : segmentBlocks (padBytes [0x61, 0x62, 0x63]) = some [abcWords] := by decide +kernel

/-- Section 5: serializing. -/
theorem test_serialize : (serialize abcHash).take 4 = [0xba, 0x78, 0x16, 0xbf] ∧
    (serialize abcHash).drop 28 = [0xf2, 0x00, 0x15, 0xad] := by decide +kernel

/-- Section 1: the digest of "abc", through the whole pure function. -/
theorem test_hash_abc : compress IV abcWords = abcHash := by decide +kernel

/-- R77, R78: a line of each kind. -/
theorem test_assemble : (assemble "RESET\nHASH \"a;c\" -> d ; comment\nINIT\nWAIT\nDIGEST -> e".toList).toOption =
    some [.reset, .hash [0x61, 0x3b, 0x63] ['d'], .wait, .offer initWord, .wait, .digest ['e']] := by decide +kernel

/-- R77: the listing of `INIT`, `0:` and 128 zeros. -/
theorem test_listing_init : listing initWord = '0' :: ':' :: List.replicate 128 '0' := by decide +kernel

/-! ### Witnesses: for each statement with hypotheses, an input that meets all of them -/

/-- The command word of the block of "abc". -/
def abcCommand : CmdWord := (1 : BitVec 1) ++ packBlock abcWords

/-- Idle, with `COMPRESS` of "abc" on offer. -/
def offering : State := State.reset.setHost [.offer abcCommand]

theorem witness_DecodeOfEncodeIsIdentity : Instr.wellFormed (.uexp 63) = true := by decide

theorem witness_EncodeOfDecodeIsCanonical :
    decode (.seq 0b011000101) = .ok (.urnd 5) ∧ Instr.urnd 5 ≠ .init ∧
    decode (.cmd (BitVec.ofNat 513 7)) = .ok .init := by decide +kernel

theorem witness_SequencerWordsThatSelect : SeqReachable 1 16 ∧ ¬((1 : BitVec 3) = 0 ∧ (16 : BitVec 6) = 0) := by decide

theorem witness_PlacedWordIsPerformedNext :
    decodeTableWord 9 0x50 = some (.uexp 16) ∧ decodeTableWord 513 0 = some .init := by decide

theorem witness_RotateRightMovesBits : (1 ≤ 1 ∧ 1 ≤ 31 ∧ 0 < 32) ∧ 1 ≤ 31 ∧ 31 ≤ 31 ∧ 31 < 32 := by decide

theorem witness_ShiftRightEntersZeros : 0 < 32 ∧ 31 < 32 := by decide

theorem witness_SigmaFunctionsBitByBit : 0 < 32 ∧ 31 < 32 := by decide

theorem witness_ChooseAndMajorityBitByBit : 0 < 32 ∧ 31 < 32 := by decide

theorem witness_RomEntriesAreRootsOfPrimes : (List.range 312).filter Nat.Prime = (List.range 312).filter Nat.Prime := rfl

/-- `INIT` accepted, with all block bits 1. -/
theorem witness_InitLoadsInitialValues :
    State.reset.phase = 0 ∧ State.reset.t = 0 ∧
    hostTurn true State.reset.digest [.drive ⟨false, true, 0, -1⟩] = .next ⟨⟨false, true, 0, -1⟩, [], []⟩ ∧
    ∃ b : Block, ((0 : BitVec 1) ++ (-1 : Block) : CmdWord) = (0 : BitVec 1) ++ b := ⟨rfl, rfl, rfl, -1, rfl⟩

theorem witness_CompressLoadsTheBlock :
    (offering.phase = 0 ∧ offering.t = 0 ∧ offering.host = .offer ((1 : BitVec 1) ++ packBlock abcWords) :: [] ∧
      offering.HostCalm ∧ 0 < 114 ∧ 113 < 114) ∧
    hostTurn true State.reset.digest [.drive ⟨false, true, 1, 5⟩] = .next ⟨⟨false, true, 1, 5⟩, [], []⟩ :=
  ⟨⟨rfl, rfl, rfl, by decide, by decide, by decide⟩, rfl⟩

theorem witness_CommandsDoNothingWhileBusy : (at' 3 20).phase ≠ 0 := by decide

theorem witness_UexpWritesOneScheduleWord :
    (16 ≤ (16 : BitVec 6).toNat ∧ 16 ≤ (63 : BitVec 6).toNat) ∧ (at' 1 16).phase = 1 ∧ (at' 1 16).t = 16 ∧
    (at' 1 63).phase = 1 ∧ (at' 1 63).t = 63 ∧
    hostTurn (at' 1 63).cmdReady (at' 1 63).digest (at' 1 63).host = .next ⟨Pins.quiet, [], []⟩ ∧
    Pins.quiet.rst = false := ⟨by decide, rfl, rfl, rfl, rfl, rfl, rfl⟩

theorem witness_UexpBelow16IsRefused : (0 : BitVec 6).toNat < 16 ∧ (15 : BitVec 6).toNat < 16 := by decide

theorem witness_UwinitCopiesHashState : (at' 2 0).phase = 2 ∧ (at' 2 0).t = 0 ∧
    hostTurn (at' 2 0).cmdReady (at' 2 0).digest (at' 2 0).host = .next ⟨Pins.quiet, [], []⟩ ∧ Pins.quiet.rst = false :=
  ⟨rfl, rfl, rfl, rfl⟩

/-- Round 0 of the block of "abc" (R142's example). -/
def roundZero : State := ((at' 3 0).setV IV).writeW 0 0x61626380

/-- With the sums of R142's example. -/
theorem witness_UrndMixesOneRound :
    (roundZero.phase = 3 ∧ roundZero.t = 0 ∧
      hostTurn roundZero.cmdReady roundZero.digest roundZero.host = .next ⟨Pins.quiet, [], []⟩ ∧ Pins.quiet.rst = false) ∧
    roundZero.v =
      #v[0x6a09e667, 0xbb67ae85, 0x3c6ef372, 0xa54ff53a, 0x510e527f, 0x9b05688c, 0x1f83d9ab, 0x5be0cd19] ∧
    (0x54da50e8 : Word) = 0x5be0cd19 +
      ((0x510e527f : Word).rotateRight 6 ^^^ (0x510e527f : Word).rotateRight 11 ^^^ (0x510e527f : Word).rotateRight 25) +
      ((0x510e527f &&& 0x9b05688c) ^^^ (~~~(0x510e527f : Word) &&& 0x1f83d9ab)) + K 0 + roundZero.W[0] ∧
    (0x08909ae5 : Word) =
      ((0x6a09e667 : Word).rotateRight 2 ^^^ (0x6a09e667 : Word).rotateRight 13 ^^^ (0x6a09e667 : Word).rotateRight 22) +
      ((0x6a09e667 &&& 0xbb67ae85) ^^^ (0x6a09e667 &&& 0x3c6ef372) ^^^ (0xbb67ae85 &&& 0x3c6ef372)) :=
  ⟨⟨rfl, rfl, rfl, rfl⟩, rfl, by decide +kernel, by decide⟩

theorem witness_UaccAddsWorkingRegisters : (at' 4 0).phase = 4 ∧ (at' 4 0).t = 0 ∧
    hostTurn (at' 4 0).cmdReady (at' 4 0).digest (at' 4 0).host = .next ⟨Pins.quiet, [], []⟩ ∧ Pins.quiet.rst = false :=
  ⟨rfl, rfl, rfl, rfl⟩

theorem witness_RoundIsAFunctionAndABijection :
    ((at' 3 63).phase = 3 ∧ (at' 3 63).t = 63) ∧ (at' 2 0).phase = 2 ∧ (at' 2 0).t = 0 ∧ (at' 2 0).HostCalm :=
  ⟨⟨rfl, rfl⟩, rfl, rfl, by decide⟩

/-- Both forms of a reset edge, from an unreachable state too. -/
theorem witness_ResetEdgeFromAnyState :
    (⟨true, true, 1, 5⟩ : Pins).rst = true ∧
    ((at' 7 3).setHost [.drive ⟨true, true, 1, 5⟩]).host = .drive ⟨true, true, 1, 5⟩ :: [] ∧
    ((at' 7 3).setHost [.reset]).host = .reset :: [] := ⟨rfl, rfl, rfl⟩

theorem witness_ResetForgetsEverything :
    ((at' 3 20).setHost [.reset]).host = .reset :: [] ∧ (offering.setHost [.reset]).host = .reset :: [] ∧
    ((at' 3 20).setHost [.reset]).samples = (offering.setHost [.reset]).samples ∧ 1 ≤ 1 := ⟨rfl, rfl, rfl, by decide⟩

theorem witness_DigestPortLayout : 0 < 8 ∧ 7 < 8 := by decide

theorem witness_DigestHoldsWhileBusy : (at' 2 0).HostCalm ∧ (at' 2 0).cmdReady = false ∧ (at' 2 0).phase ≠ 4 ∧
    ∃ u, step (at' 2 0) = .next u := ⟨by decide, rfl, by decide, _, rfl⟩

/-- Busy, idle with a command offered, idle with none. -/
theorem witness_StepPerformsTheDecodedInstruction :
    (hostTurn (at' 3 7).cmdReady (at' 3 7).digest (at' 3 7).host = .next ⟨Pins.quiet, [], []⟩ ∧ Pins.quiet.rst = false ∧
      decode (.seq ((at' 3 7).phase ++ (at' 3 7).t)) = .ok (.urnd 7)) ∧
    (hostTurn offering.cmdReady offering.digest offering.host = .next ⟨Pins.offering abcCommand, [], []⟩ ∧
      (Pins.offering abcCommand).cmdValid = true ∧ decode (.cmd abcCommand) = .ok (.compress (cmdBlockOf abcCommand))) ∧
    hostTurn true State.reset.digest [] = .next ⟨Pins.quiet, [], []⟩ ∧ Pins.quiet.cmdValid = false :=
  ⟨⟨rfl, rfl, by decide⟩, ⟨rfl, rfl, by decide +kernel⟩, rfl, rfl⟩

/-- A reset edge in an unreachable state, and a reachable state at each end of the two loops. -/
theorem witness_SequencerFollowsItsTable :
    (hostTurn ((at' 7 3).setHost [.reset]).cmdReady ((at' 7 3).setHost [.reset]).digest [.reset] =
      .next ⟨Pins.reset, [], []⟩ ∧ Pins.reset.rst = true) ∧
    (∀ q ∈ ([(0, 0), (1, 16), (1, 62), (1, 63), (2, 0), (3, 0), (3, 62), (3, 63), (4, 0)] : List (BitVec 3 × BitVec 6)),
      SeqReachable q.1 q.2) ∧
    hostTurn (at' 1 63).cmdReady (at' 1 63).digest (at' 1 63).host = .next ⟨Pins.quiet, [], []⟩ :=
  ⟨⟨rfl, rfl⟩, by decide +kernel, rfl⟩

theorem witness_WritersOfEachRegister :
    hostTurn (at' 4 0).cmdReady (at' 4 0).digest (at' 4 0).host = .next ⟨Pins.quiet, [], []⟩ ∧
    ∃ u, step (at' 4 0) = .next u := ⟨rfl, _, rfl⟩

theorem witness_OfferWaitsWhileBusy : SeqReachable 3 20 ∧ ((at' 3 20).setHost [.offer 0]).phase ≠ 0 ∧
    ((at' 3 20).setHost [.offer 0]).host = .offer 0 :: [] := ⟨by decide, by decide, rfl⟩

theorem witness_OfferIsAccepted : SeqReachable 1 16 ∧ ((at' 1 16).setHost [.offer abcCommand]).host = [.offer abcCommand] :=
  ⟨by decide, rfl⟩

theorem witness_CoreReturnsToIdle : SeqReachable (at' 1 16).phase (at' 1 16).t ∧ (at' 1 16).HostCalm :=
  ⟨.inr (.inl ⟨rfl, by decide⟩), by decide⟩

/-- Two states that differ in the Hash State and in the block on offer. -/
theorem witness_ControlIgnoresData : SameControl offering ((State.reset.setH abcHash).setHost [.offer (cmdWord 1 5)]) := by
  unfold SameControl; decide +kernel

theorem witness_StepKeepsInvariant : (at' 2 0).Inv ∧ ∃ u, step (at' 2 0) = .next u :=
  ⟨⟨.inr (.inr (.inl ⟨rfl, rfl⟩)), by decide⟩, _, rfl⟩

/-- The last step of a `COMPRESS` of the all-zero block. -/
def lastStep : State := (at' 4 0).setV (rounds (Vector.replicate 64 0) IV 64)

theorem lastStep_filled : ScheduleFilled (Vector.replicate 64 0) 64 := by
  unfold ScheduleFilled; decide

theorem lastStep_dataInv : lastStep.DataInv :=
  ⟨fun h => absurd h (by decide), fun h => absurd h (by decide), fun h => absurd h (by decide),
    fun _ => ⟨lastStep_filled, rfl⟩⟩

theorem lastStep_inv : lastStep.Inv := ⟨.inr (.inr (.inr (.inr ⟨rfl, rfl⟩))), by intro m hm; cases hm⟩

theorem witness_StepKeepsDataInvariant : lastStep.Inv ∧ lastStep.DataInv ∧ ∃ u, step lastStep = .next u :=
  ⟨lastStep_inv, lastStep_dataInv, _, step_of_turn (turn := ⟨Pins.quiet, [], []⟩) rfl⟩

theorem witness_AccumulatorCompletesCompress : lastStep.Inv ∧ lastStep.DataInv ∧ lastStep.HostCalm ∧ lastStep.phase = 4 ∧
    ∃ u, step lastStep = .next u :=
  ⟨lastStep_inv, lastStep_dataInv, (by intro m hm; cases hm), rfl, _, step_of_turn (turn := ⟨Pins.quiet, [], []⟩) rfl⟩

/-- A message of 2^61 bytes. -/
theorem exists_tooLong : ∃ m : List Byte, 2 ^ 64 ≤ 8 * m.length :=
  ⟨List.replicate (2 ^ 61) 0, Nat.le_trans (by decide : 2 ^ 64 ≤ 8 * 2 ^ 61)
    (Nat.le_of_eq (congrArg (8 * ·) List.length_replicate.symm))⟩

theorem witness_TooLongMessageIsRefused : ∃ (s : State) (m : List Byte) (d : ResultName), 2 ^ 64 ≤ 8 * m.length ∧
    s.host = .hash m d :: [] :=
  exists_tooLong.elim fun m h => ⟨State.reset.setHost [.hash m []], m, [], h, rfl⟩

theorem step_refuses_tooLong (m : List Byte) (h : 2 ^ 64 ≤ 8 * m.length) :
    step (State.reset.setHost [.hash m []]) = .refused .messageTooLong := by
  apply step_of_refused_turn
  rw [State.setHost_host]
  simp only [hostTurn, blocksOf_tooLong (Nat.not_lt.2 h)]

/-- Both reasons for a refusal. -/
theorem witness_StepRefusesOnlyWithoutMeaning :
    step (at' 7 3) = .refused (.unreachableSequencerWord 0x1c3) ∧
    ∃ s : State, step s = .refused .messageTooLong :=
  ⟨rfl, exists_tooLong.elim fun m h => ⟨_, step_refuses_tooLong m h⟩⟩

theorem witness_RunsNeverStop : (offering.setSeq 3 20).Inv := ⟨.inr (.inr (.inr (.inl rfl))), by decide⟩

theorem witness_UnreachableWordIsRefused :
    hostTurn (at' 1 15).cmdReady (at' 1 15).digest (at' 1 15).host = .next ⟨Pins.quiet, [], []⟩ ∧ Pins.quiet.rst = false ∧
    ¬SeqReachable (at' 1 15).phase (at' 1 15).t := ⟨rfl, rfl, by decide⟩

theorem witness_ScheduleIsExpandAfter48Steps : offering.Idle ∧
    offering.host = .offer ((1 : BitVec 1) ++ packBlock abcWords) :: [] ∧ offering.HostCalm ∧ 16 ≤ 63 ∧ 63 < 64 :=
  ⟨⟨rfl, rfl⟩, rfl, by decide, by decide, by decide⟩

theorem witness_CompressNetEffect : offering.Idle ∧
    offering.host = .offer ((1 : BitVec 1) ++ packBlock abcWords) :: [] ∧ offering.HostCalm ∧ 1 ≤ 114 ∧ 114 ≤ 114 :=
  ⟨⟨rfl, rfl⟩, rfl, by decide, by decide, by decide⟩

/-- `INIT` and two blocks. -/
theorem witness_CommandsChainBlocks : State.reset.Idle ∧
    (State.reset.setHost [.offer 0, .offer abcCommand, .offer abcCommand]).host =
      .offer 0 :: [abcWords, abcWords].map (fun m => .offer ((1 : BitVec 1) ++ packBlock m)) := ⟨⟨rfl, rfl⟩, rfl⟩

theorem witness_InitForgetsEverythingBefore :
    State.reset.Idle ∧ (State.reset.setH abcHash).Idle ∧
    (State.reset.setHost [.offer ((0 : BitVec 1) ++ packBlock abcWords), .digest ['d']]).host =
      .offer ((0 : BitVec 1) ++ packBlock abcWords) :: [.digest ['d']] ∧
    State.reset.samples = (State.reset.setH abcHash).samples ∧ 1 ≤ 1 := ⟨⟨rfl, rfl⟩, ⟨rfl, rfl⟩, rfl, rfl, by decide⟩

/-- Two idle states with different working registers. -/
theorem witness_IdleLeftoversNeverShow : State.reset.phase = 0 ∧ SameVisible State.reset (State.reset.setV abcHash) ∧
    State.reset.v ≠ (State.reset.setV abcHash).v := ⟨rfl, ⟨rfl, rfl, rfl, rfl, rfl⟩, by decide⟩

theorem witness_PadIsBitPadding : 8 * ([0x61, 0x62, 0x63] : List Byte).length < 2 ^ 64 := by decide

theorem witness_PadInBytes : 8 * (List.replicate 55 (0x61 : Byte)).length < 2 ^ 64 ∧
    8 * (List.replicate 56 (0x61 : Byte)).length < 2 ^ 64 := by decide

theorem witness_PadInvariants : 8 * ([] : List Byte).length < 2 ^ 64 := by decide

/-- The 64 bytes of one chunk, its first and last byte; and a buffer of 63 bytes. -/
theorem witness_SegmentedBlocksHoldTheBytes :
    (∃ bs, segmentBlocks (List.replicate 64 0x61) = some bs ∧ 0 < bs.length) ∧ 63 < 64 ∧
    (List.replicate 64 (0x61 : Byte))[64 * 0 + 0]? = some 0x61 ∧ (List.replicate 64 (0x61 : Byte))[64 * 0 + 63]? = some 0x61 ∧
    (List.replicate 63 (0x61 : Byte)).length % 64 ≠ 0 := ⟨⟨_, rfl, by decide⟩, by decide, rfl, rfl, by decide⟩

theorem witness_SegmentedWordsAreBigEndian :
    (List.replicate 63 (0x61 : Byte)).length % 64 ≠ 0 ∧ (List.replicate 64 (0x61 : Byte)).length % 64 = 0 ∧
    (List.replicate 64 (0x61 : Byte))[64 * 0 + 4 * 15 + 3]? = some 0x61 ∧ pad [] = some (padBytes []) :=
  ⟨by decide, by decide, rfl, by decide⟩

theorem witness_SerializerReadsTheDigestPort : 0 < 8 ∧ 7 < 8 ∧ 0 < 4 ∧ 3 < 4 := by decide

/-- `DIGEST` on an idle core, and on a busy one. -/
theorem witness_DigestSamplesWithoutSideEffect :
    (State.reset.setHost [.digest ['d']]).host = .digest ['d'] :: [] ∧ State.reset.phase = 0 ∧ (at' 2 0).phase ≠ 0 ∧
    ∃ u, step ((at' 2 0).setHost [.digest ['d']]) = .next u := ⟨rfl, rfl, by decide, _, rfl⟩

/-- `HASH` on an idle core, and on a busy one. -/
theorem witness_HashSamplesTheMessageDigest : SeqReachable State.reset.phase State.reset.t ∧ State.reset.phase = 0 ∧
    SeqReachable (at' 3 7).phase (at' 3 7).t ∧
    (State.reset.setHost [.hash [0x61, 0x62, 0x63] ['d']]).host = [.hash [0x61, 0x62, 0x63] ['d']] ∧
    8 * ([0x61, 0x62, 0x63] : List Byte).length < 2 ^ 64 := ⟨by decide, rfl, by decide, rfl, by decide⟩

/-- Three samples at one edge of a busy core; a step that takes one; the last edge of a command, and the first after it. -/
theorem witness_SamplesShowThePorts :
    ((at' 3 7).setHost [.sample ['a'], .sample ['b'], .sample ['c']]).host = [['a'], ['b'], ['c']].map .sample ++ [] ∧
    (∃ u, step ((at' 3 7).setHost [.sample ['a'], .wait]) = .next u ∧ u.samples.length = 1) ∧ State.reset.Idle ∧
    (∀ p ∈ List.replicate 113 Pins.quiet, p.rst = false ∧ p.cmdValid = false) ∧
    (∀ p ∈ List.replicate 114 Pins.quiet, p.rst = false ∧ p.cmdValid = false) ∧
    (State.reset.setHost (.offer abcCommand :: ((List.replicate 113 Pins.quiet).map .drive ++ [.sample ['d']]))).host =
      .offer ((1 : BitVec 1) ++ packBlock abcWords) :: ((List.replicate 113 Pins.quiet).map .drive ++ [.sample ['d']]) ∧
    (State.reset.setHost (.offer abcCommand :: ((List.replicate 114 Pins.quiet).map .drive ++ [.sample ['d']]))).host =
      .offer ((1 : BitVec 1) ++ packBlock abcWords) :: ((List.replicate 114 Pins.quiet).map .drive ++ [.sample ['d']]) :=
  ⟨rfl, ⟨_, rfl, rfl⟩, ⟨rfl, rfl⟩, by decide, by decide, rfl, rfl⟩

/-- Two instances. -/
def two : NCores := ⟨2, by decide⟩

/-- Two instances, both of which can step, and an interleaving of three steps. -/
theorem witness_InstancesDoNotInteract : (0 : Fin 2) ≠ 1 ∧
    (∃ x, System.stepAt (n := two) #v[State.reset, at' 2 0] (0 : Fin 2) = .next x) ∧
    (∃ y, System.stepAt (n := two) #v[State.reset, at' 2 0] (1 : Fin 2) = .next y) ∧
    ∃ z, System.run (n := two) ([1, 0, 1] : List (Fin 2)) #v[State.reset, at' 2 0] = .next z :=
  ⟨by decide, ⟨_, rfl⟩, ⟨_, rfl⟩, _, rfl⟩

end Sys2Proof.Tests
end

section
/-! Facts about the host's turn and about one step, for the statements of spec/10_state.md. The cases of `step_cases` stand
in its order everywhere: reset edge, idle edge, `INIT`, `COMPRESS`, `UEXP`, `UWINIT`, `URND`, `UACC`. -/

namespace Sys2Proof.Machine

/-- R114: a host whose moves keep `rst` low drives `rst` = 0 at this edge. -/
theorem hostTurn_rst_low (ready : Bool) (dig : Digest) {ms : List HostMove} {turn : Turn}
    (h : hostTurn ready dig ms = .next turn) (hm : ∀ m ∈ ms, m.keepsRstLow = true) : turn.pins.rst = false := by
  induction ms generalizing turn with
  | nil => cases h; rfl
  | cons m r ih =>
    have hr : ∀ m ∈ r, m.keepsRstLow = true := fun m hmr => hm m (List.mem_cons_of_mem _ hmr)
    cases m with
    | drive p => cases h; simpa [HostMove.keepsRstLow] using hm _ (List.mem_cons_self ..)
    | reset => simp [HostMove.keepsRstLow] at hm
    | offer w => cases h; rfl
    | wait =>
      simp only [hostTurn] at h
      split at h
      · exact ih h hr
      · cases h; rfl
    | digest d =>
      simp only [hostTurn] at h
      split at h
      · obtain ⟨y, hy, rfl⟩ := afterSample_eq_next.1 h
        exact ih (turn := y) hy hr
      · cases h; rfl
    | sample d =>
      obtain ⟨y, hy, rfl⟩ := afterSample_eq_next.1 h
      exact ih (turn := y) hy hr
    | hash msg d =>
      simp only [hostTurn] at h
      split at h
      · split at h <;> cases h <;> rfl
      · simp at h
      · simp at h

/-- Whatever else a step does, it takes the host's turn. -/
theorem step_takes_turn {s u : State} (h : step s = .next u) :
    ∃ turn, hostTurn s.cmdReady s.digest s.host = .next turn ∧
      u.host = turn.rest ∧ u.samples = s.samples ++ turn.samples := by
  obtain ⟨turn, ht, hc⟩ := step_cases h
  refine ⟨turn, ht, ?_⟩
  rcases hc with ⟨-, rfl⟩ | ⟨-, -, -, rfl⟩ | ⟨-, -, -, -, rfl⟩ | ⟨-, -, -, -, rfl⟩ | ⟨-, -, -, rfl⟩ | ⟨-, -, -, rfl⟩ |
    ⟨-, -, rfl⟩ | ⟨-, -, -, rfl⟩ <;> simp

/-- R27: below 63 the counter does not wrap. -/
theorem counter_succ_toNat {t : BitVec 6} (h : t ≠ 63) : (t + 1).toNat = t.toNat + 1 := by
  bv_omega

/-- R131, R142: the end of a looping micro-operation at 63, and below it. -/
theorem State.advance_last (s : State) (p : BitVec 3) {t : BitVec 6} (h : t = 63) : s.advance t p = s.setSeq p 0 :=
  if_pos h

theorem State.advance_of_ne (s : State) (p : BitVec 3) {t : BitVec 6} (h : t ≠ 63) : s.advance t p = s.setT (t + 1) :=
  if_neg h

/-- R28: the sequencer word after a step is a reachable one, whatever it was before: an unreachable word has no step but
reset. -/
theorem step_seqReachable {s u : State} (h : step s = .next u) : SeqReachable u.phase u.t := by
  obtain ⟨turn, -, hc⟩ := step_cases h
  rcases hc with ⟨-, rfl⟩ | ⟨-, hidle, -, rfl⟩ | ⟨-, -, -, -, rfl⟩ | ⟨-, -, -, -, rfl⟩ | ⟨-, hp, h16, rfl⟩ |
    ⟨-, -, -, rfl⟩ | ⟨-, hp, rfl⟩ | ⟨-, -, -, rfl⟩
  · exact .inl ⟨rfl, rfl⟩
  · exact .inl hidle
  · exact .inl ⟨rfl, rfl⟩
  · exact .inr (.inl ⟨rfl, Nat.le_refl 16⟩)
  · by_cases h63 : s.t = 63
    · rw [State.advance_last _ _ h63]
      exact .inr (.inr (.inl ⟨rfl, rfl⟩))
    · rw [State.advance_of_ne _ _ h63]
      have hsucc := counter_succ_toNat h63
      exact .inr (.inl ⟨hp, by rw [State.setT_t]; omega⟩)
  · exact .inr (.inr (.inr (.inl rfl)))
  · by_cases h63 : s.t = 63
    · rw [State.advance_last _ _ h63]
      exact .inr (.inr (.inr (.inr ⟨rfl, rfl⟩)))
    · rw [State.advance_of_ne _ _ h63]
      exact .inr (.inr (.inr (.inl hp)))
  · exact .inl ⟨rfl, rfl⟩

/-- R170: the host's turn leaves no move that the driver refuses, when there was none before. -/
theorem step_keeps_withinLimit {s u : State} (h : step s = .next u) (hm : ∀ m ∈ s.host, m.withinLimit = true) :
    ∀ m ∈ u.host, m.withinLimit = true := by
  obtain ⟨turn, ht, hhost, -⟩ := step_takes_turn h
  rw [hhost]
  exact hostTurn_rest (P := fun m => m.withinLimit = true) _ _ rfl (fun _ => rfl) (fun _ => rfl) ht hm

/-- Settles O34: the sequencer word is reachable after every step, and the host's turn adds no message. -/
theorem stepKeepsInvariant : Obligations.StepKeepsInvariant :=
  fun _ _ ⟨_, hlimit⟩ h => ⟨step_seqReachable h, step_keeps_withinLimit h hlimit⟩

/-- Settles O28, along the eight cases of a step. -/
theorem writersOfEachRegister : Obligations.WritersOfEachRegister := by
  intro s u turn ht h
  obtain ⟨turn', ht', hc⟩ := step_cases h
  cases ht.symm.trans ht'
  rcases hc with ⟨hr, rfl⟩ | ⟨-, -, -, rfl⟩ | ⟨hr, hi, hv, ho, rfl⟩ | ⟨hr, hi, hv, ho, rfl⟩ | ⟨hr, hp, -, rfl⟩ |
    ⟨hr, hp, -, rfl⟩ | ⟨hr, hp, rfl⟩ | ⟨hr, hp, -, rfl⟩
  · exact ⟨.inr (.inl ⟨hr, rfl⟩), .inl rfl, .inl rfl⟩
  · exact ⟨.inl rfl, .inl rfl, .inl rfl⟩
  · exact ⟨.inr (.inr (.inl ⟨hr, hi.1, hv, ho, rfl⟩)), .inl rfl, .inl rfl⟩
  · refine ⟨.inl (by simp), .inl (by simp), .inr (.inl ⟨hr, hi.1, hv, ho, fun j hj h16 => ?_⟩)⟩
    simp [loadBlock_getElem, Nat.not_lt.2 h16]
  · refine ⟨.inl (by simp), .inl (by simp), .inr (.inr ⟨hr, hp, fun j hj hne => ?_⟩)⟩
    simp [counterIndex, Vector.getElem_set_ne, Ne.symm hne]
  · exact ⟨.inl rfl, .inr ⟨hr, .inl hp⟩, .inl rfl⟩
  · exact ⟨.inl (by simp), .inr ⟨hr, .inr hp⟩, .inl (by simp)⟩
  · exact ⟨.inr (.inr (.inr ⟨hr, hp, fun j hj => by simp⟩)), .inl rfl, .inl rfl⟩

/-- Settles O25: of the writers of `H` (O28), none is at work at an edge with `rst` = 0 in a busy phase other than `ACC`. -/
theorem digestHoldsWhileBusy : Obligations.DigestHoldsWhileBusy := by
  intro s u hcalm hbusy hacc h
  have hphase : s.phase ≠ 0 := (State.cmdReady_false_iff s).1 hbusy
  obtain ⟨turn, ht, -⟩ := step_takes_turn h
  have hrst : turn.pins.rst = false := hostTurn_rst_low _ _ ht fun m hm => (hcalm m hm).1
  have hH : u.H = s.H := by
    rcases (writersOfEachRegister s u turn ht h).1 with hH | ⟨hreset, -⟩ | ⟨-, hidle, -⟩ | ⟨-, hp, -⟩
    · exact hH
    · simp [hrst] at hreset
    · exact absurd hidle hphase
    · exact absurd hp hacc
  exact ⟨hH, State.digest_congr hH⟩

/-- R33: the eight 32-bit fields of `digest`. -/
theorem digestOf_extractLsb' (h : Words8) (j : Nat) (hj : j < 8) :
    (digestOf h).extractLsb' (224 - 32 * j) 32 = h[j] := by
  unfold digestOf
  interval_cases j <;>
    simp (disch := decide) only [BitVec.extractLsb'_append_eq_of_le, BitVec.extractLsb'_append_eq_of_add_le,
      Nat.reduceMul, Nat.reduceSub, BitVec.extractLsb'_eq_self]

/-- Settles O24. -/
theorem digestPortLayout : Obligations.DigestPortLayout :=
  fun s j hj => digestOf_extractLsb' s.H j hj

/-- Settles O22: the values of R37, and the two ports computed from them. -/
theorem resetStateValues : Obligations.ResetStateValues :=
  ⟨rfl, rfl, rfl, rfl, by decide⟩

/-- Settles O33. -/
theorem invariantHoldsAtReset : Obligations.InvariantHoldsAtReset :=
  ⟨.inl ⟨rfl, rfl⟩, List.forall_mem_nil _⟩

/-- Settles O36: in phase `IDLE` the data invariant asks nothing. -/
theorem dataInvariantHoldsAtReset : Obligations.DataInvariantHoldsAtReset :=
  ⟨nofun, nofun, nofun, nofun⟩

end Sys2Proof.Machine
end

section
/-! The message schedule: its recurrence (R132), and the build that keeps a window of 16 entries (R23). -/

namespace Sys2Proof.Machine

/-- R132: the expansion step at `n` fills entry `n` and leaves what is filled below it. -/
theorem ScheduleFilled.set {W : Schedule} {n : Nat} (h16 : 16 ≤ n) (hn : n < 64) (hW : ScheduleFilled W n) :
    ScheduleFilled (W.set n (expandWord W ⟨n, hn⟩)) (n + 1) := by
  intro i hi hi16 hin
  have hbelow : expandWord (W.set n (expandWord W ⟨n, hn⟩)) ⟨i, hi⟩ = expandWord W ⟨i, hi⟩ := by
    refine expandWord_congr _ _ _ (fun j hj hji => ?_) hi16
    rw [Vector.getElem_set_ne _ _ (by dsimp only at hji; omega)]
  rw [hbelow]
  rcases Nat.lt_succ_iff_lt_or_eq.1 hin with hlt | rfl
  · rw [Vector.getElem_set_ne _ _ (by omega), hW i hi hi16 hlt]
  · rw [Vector.getElem_set_self]

theorem expandSteps_filled (W : Schedule) {n : Nat} (hn : n ≤ 48) : ScheduleFilled (expandSteps W n) (n + 16) := by
  induction n with
  | zero => intro i hi h16 hlt; omega
  | succ n ih =>
    rw [expandSteps_succ W n (by omega), Nat.add_right_comm]
    exact (ih (by omega)).set (by omega) (by omega)

theorem expandSteps_getElem_of_lt_16 (W : Schedule) {n i : Nat} (hn : n ≤ 48) (hi : i < 16) :
    (expandSteps W n)[i] = W[i] := by
  induction n with
  | zero => rfl
  | succ n ih =>
    simp only [expandSteps_succ W n (by omega)]
    rw [Vector.getElem_set_ne _ _ (by omega), ih (by omega)]

/-- R132: the first sixteen entries of the schedule are the block. -/
theorem expand_getElem_of_lt_16 (m : BlockWords) {i : Nat} (hi : i < 16) : (expand m)[i] = m[i] := by
  unfold expand
  rw [expandSteps_getElem_of_lt_16 _ (Nat.le_refl 48) hi, loadBlock_getElem, dif_pos hi]

/-- R132: the other entries obey the recurrence. -/
theorem expand_filled (m : BlockWords) : ScheduleFilled (expand m) 64 :=
  expandSteps_filled _ (Nat.le_refl 48)

/-- R132, the recurrence at `n + 16` in the offsets that a window from `n` on holds it at. -/
theorem expand_getElem_add_16 (m : BlockWords) {n : Nat} (h : n + 16 < 64) : (expand m)[n + 16] =
    ssig1 (expand m)[n + 14] + (expand m)[n + 9] + ssig0 (expand m)[n + 1] + (expand m)[n] :=
  expand_filled m (n + 16) h (by omega) h

/-- R23: as long as it lies in the schedule, the window after `n` rounds holds the schedule from entry `n` on. -/
theorem windowRounds_window (m : BlockWords) (v : Words8) (n i : Nat) (hi : i < 16) (h : n + i < 64) :
    (windowRounds m v n).1[i] = (expand m)[n + i] := by
  induction n generalizing i with
  | zero => simp [windowRounds, expand_getElem_of_lt_16 m hi]
  | succ n ih =>
    simp only [windowRounds, windowNext_getElem]
    split
    · simp only [ih (i + 1) (by omega) (by omega), Nat.add_right_comm n 1 i, Nat.add_assoc]
    · obtain rfl : i = 15 := by omega
      rw [ih 14 (by omega) (by omega), ih 9 (by omega) (by omega), ih 1 (by omega) (by omega),
        ih 0 (by omega) (by omega)]
      exact (expand_getElem_add_16 m (by omega)).symm

/-- R115: so the rounds beside the window are the rounds on the whole schedule. -/
theorem windowRounds_rounds (m : BlockWords) (v : Words8) {n : Nat} (hn : n ≤ 64) :
    (windowRounds m v n).2 = rounds (expand m) v n := by
  induction n with
  | zero => rfl
  | succ n ih =>
    have hlt : n < 64 := by omega
    rw [rounds_succ _ _ n hlt, ← ih (by omega)]
    simp [windowRounds, hlt, windowRounds_window]

/-- Settles O44: the window always shows the entry that the next round takes. -/
theorem windowedCompressIsCompress : Obligations.WindowedCompressIsCompress := by
  intro hin m
  rw [compressWindow, windowRounds_rounds m hin (Nat.le_refl 64), compress]

end Sys2Proof.Machine
end

section
/-! R34: what `W` and `a` to `h` hold in an idle core never shows. Two runs that begin idle and visibly alike agree, while a
`COMPRESS` is in progress, on every entry of `W` and `v` that it has written; and it reads no other. -/

namespace Sys2Proof.Machine

/-- Visibly alike, and alike in what a `COMPRESS` in progress has written so far, one case per phase. -/
inductive AgreeOnWritten (s u : State) : Prop
  | idle (hv : SameVisible s u) (hp : s.phase = Phase.idle)
  | expand (hv : SameVisible s u) (hp : s.phase = Phase.expand) (h16 : 16 ≤ s.t.toNat)
      (hW : ∀ i, (hi : i < 64) → i < s.t.toNat → s.W[i] = u.W[i])
  | winit (hv : SameVisible s u) (hp : s.phase = Phase.winit) (ht : s.t = 0) (hW : s.W = u.W)
  | round (hv : SameVisible s u) (hp : s.phase = Phase.round) (hW : s.W = u.W) (hreg : s.v = u.v)
  | acc (hv : SameVisible s u) (hp : s.phase = Phase.acc) (ht : s.t = 0) (hreg : s.v = u.v)

theorem AgreeOnWritten.sameVisible {s u : State} (h : AgreeOnWritten s u) : SameVisible s u := by
  cases h <;> assumption

/-! What two visibly equal states have in common. -/

theorem SameVisible.word_eq {s u : State} (h : SameVisible s u) : u.phase = s.phase ∧ u.t = s.t := by
  obtain ⟨-, hp, ht, -, -⟩ := h
  exact ⟨hp.symm, ht.symm⟩

theorem SameVisible.seq_eq {s u : State} (h : SameVisible s u) : u.seq = s.seq := by
  rw [State.seq, State.seq, h.word_eq.1, h.word_eq.2]

/-- R34: the host sees the same ports, and does the same. -/
theorem SameVisible.hostTurn_eq {s u : State} (h : SameVisible s u) :
    hostTurn u.cmdReady u.digest u.host = hostTurn s.cmdReady s.digest s.host := by
  obtain ⟨hH, hp, -, hhost, -⟩ := h
  rw [State.cmdReady, State.cmdReady, State.digest_congr hH, hp, hhost]

theorem SameVisible.afterTurn {s u : State} (h : SameVisible s u) (turn : Turn) :
    SameVisible (s.afterTurn turn) (u.afterTurn turn) := by
  obtain ⟨hH, hp, ht, -, hsamples⟩ := h
  exact ⟨hH, hp, ht, rfl, by simp [hsamples]⟩

theorem SameVisible.resetEdge {s u : State} (h : SameVisible s u) : SameVisible s.resetEdge u.resetEdge := by
  obtain ⟨-, -, -, hhost, hsamples⟩ := h
  exact ⟨rfl, rfl, rfl, hhost, hsamples⟩

/-- R112: an accepted `COMPRESS` loads the same block into both, the sixteen entries below (`EXPAND`, 16). -/
theorem AgreeOnWritten.compress {s u : State} (h : SameVisible s u) (m : BlockWords) :
    AgreeOnWritten ((s.setW (loadBlock s.W m)).setSeq Phase.expand 16)
      ((u.setW (loadBlock u.W m)).setSeq Phase.expand 16) := by
  obtain ⟨hH, -, -, hhost, hsamples⟩ := h
  refine .expand (by simp [SameVisible, hH, hhost, hsamples]) rfl (Nat.le_refl 16) fun i hi h16 => ?_
  have hi16 : i < 16 := h16
  simp [loadBlock_getElem, hi16]

/-- R131: schedules that agree below `t` agree up to `t` once entry `t` is computed in each. -/
theorem set_expandWord_agree {W V : Schedule} {t : Fin 64} (ht : 16 ≤ t.val)
    (h : ∀ i, (hi : i < 64) → i < t.val → W[i] = V[i]) (i : Nat) (hi : i < 64) (hit : i ≤ t.val) :
    (W.set t.val (expandWord W t))[i] = (V.set t.val (expandWord V t))[i] := by
  rw [expandWord_congr W V t h ht]
  rcases Nat.lt_or_eq_of_le hit with hlt | rfl
  · rw [Vector.getElem_set_ne _ _ (by omega), Vector.getElem_set_ne _ _ (by omega), h i hi hlt]
  · rw [Vector.getElem_set_self, Vector.getElem_set_self]

/-- R131: `UEXP` reads entries below `t` only. -/
theorem execUexp_agree {s u : State} (hv : SameVisible s u) (hp : s.phase = Phase.expand) (h16 : 16 ≤ s.t.toNat)
    (hW : ∀ i, (hi : i < 64) → i < s.t.toNat → s.W[i] = u.W[i]) :
    OutcomesAgree AgreeOnWritten (execUexp s.t s) (execUexp s.t u) := by
  obtain ⟨hH, hphase, -, hhost, hsamples⟩ := hv
  have hset := set_expandWord_agree (t := counterIndex s.t) h16 hW
  rw [execUexp_of_le _ _ h16, execUexp_of_le _ _ h16]
  by_cases h63 : s.t = 63
  · rw [State.advance_last _ _ h63, State.advance_last _ _ h63]
    have hlast : (counterIndex s.t).val = 63 := congrArg BitVec.toNat h63
    refine .winit ⟨hH, rfl, rfl, hhost, hsamples⟩ rfl rfl ?_
    exact Vector.ext fun i hi => hset i hi (by omega)
  · rw [State.advance_of_ne _ _ h63, State.advance_of_ne _ _ h63]
    have hsucc : (s.t + 1).toNat = s.t.toNat + 1 := counter_succ_toNat h63
    refine .expand ⟨hH, hphase, rfl, hhost, hsamples⟩ hp (by rw [State.setT_t]; omega) fun i hi hit => ?_
    exact hset i hi (Nat.le_of_lt_succ (Nat.lt_of_lt_of_eq hit hsucc))

/-- R141: `UWINIT` overwrites `a` to `h` with the Hash State. -/
theorem execUwinit_agree {s u : State} (hv : SameVisible s u) (hW : s.W = u.W) :
    OutcomesAgree AgreeOnWritten (execUwinit s) (execUwinit u) := by
  obtain ⟨hH, -, -, hhost, hsamples⟩ := hv
  exact .round ⟨hH, rfl, rfl, hhost, hsamples⟩ rfl hW hH

/-- R142: `URND` computes the same registers from the same registers and schedule. -/
theorem execUrnd_agree {s u : State} (hv : SameVisible s u) (hp : s.phase = Phase.round) (hW : s.W = u.W)
    (hreg : s.v = u.v) : OutcomesAgree AgreeOnWritten (execUrnd s.t s) (execUrnd s.t u) := by
  obtain ⟨hH, hphase, -, hhost, hsamples⟩ := hv
  simp only [execUrnd, hW, hreg]
  by_cases h63 : s.t = 63
  · rw [State.advance_last _ _ h63, State.advance_last _ _ h63]
    exact .acc ⟨hH, rfl, rfl, hhost, hsamples⟩ rfl rfl rfl
  · rw [State.advance_of_ne _ _ h63, State.advance_of_ne _ _ h63]
    exact .round ⟨hH, hphase, rfl, hhost, hsamples⟩ hp hW rfl

/-- R151: `UACC` adds the same registers to the same Hash State. -/
theorem execUacc_agree {s u : State} (hv : SameVisible s u) (hreg : s.v = u.v) :
    OutcomesAgree AgreeOnWritten (execUacc s) (execUacc u) := by
  obtain ⟨hH, -, -, hhost, hsamples⟩ := hv
  have hsum : addWords s.H s.v = addWords u.H u.v := by rw [hH, hreg]
  exact .idle ⟨hsum, rfl, rfl, hhost, hsamples⟩ rfl

/-- R76: `IDLE` with a counter that is not 0 selects nothing. -/
theorem decodeSeq_idle_of_ne {t : BitVec 6} (h : t ≠ 0) :
    decodeSeq (seqWord Phase.idle t) = .error .idleCounterNotZero := by
  have h' : ¬t = 0#6 := h
  simp [decodeSeq, h']

/-- R116, the edges of an idle core with `rst` = 0: a command is accepted by both, or nothing happens, or both are refused. -/
theorem edge_agree_of_idle (p : Pins) {s u : State} (hv : SameVisible s u) (hp : s.phase = Phase.idle)
    (hr : p.rst = false) : OutcomesAgree AgreeOnWritten (edge p s) (edge p u) := by
  have hup : u.phase = Phase.idle := hv.word_eq.1.trans hp
  by_cases ht : s.t = 0
  · have hi : s.Idle := ⟨hp, ht⟩
    have hui : u.Idle := ⟨hup, hv.word_eq.2.trans ht⟩
    cases hvalid : p.cmdValid with
    | false =>
      rw [edge_idle s p hr hi hvalid, edge_idle u p hr hui hvalid]
      exact .idle hv hp
    | true =>
      rw [edge_command s p hr hi hvalid, edge_command u p hr hui hvalid, Pins.cmd, decodeCmd_cmdWord]
      split
      · rw [exec, exec, execInit_ready s hp, execInit_ready u hup]
        exact .idle hv.resetEdge rfl
      · rw [exec, exec, execCompress_ready s _ hp, execCompress_ready u _ hup]
        exact .compress hv _
  · have hd : decodeSeq s.seq = .error .idleCounterNotZero := by
      rw [State.seq, hp]; exact decodeSeq_idle_of_ne ht
    have hz : s.seq ≠ 0 := fun h0 => ht ((seq_eq_zero_iff s).1 h0).2
    have hseq := hv.seq_eq
    rw [edge_unreachable s p hr hz hd, edge_unreachable u p hr (hseq ▸ hz) (hseq ▸ hd), hseq]
    exact rfl

/-- A micro-operation is selected in both of two visibly equal states or in none. -/
theorem edge_uop_agree (p : Pins) {R : State → State → Prop} {s u : State} {i : Instr} (hv : SameVisible s u)
    (hr : p.rst = false) (hd : decodeSeq s.seq = .ok i) (h : OutcomesAgree R (exec i s) (exec i u)) :
    OutcomesAgree R (edge p s) (edge p u) := by
  rw [edge_uop s p hr hd, edge_uop u p hr (hv.seq_eq ▸ hd)]
  exact h

/-- R116: one edge with the same inputs, along the phases. -/
theorem edge_agree (p : Pins) {s u : State} (h : AgreeOnWritten s u) :
    OutcomesAgree AgreeOnWritten (edge p s) (edge p u) := by
  cases hr : p.rst with
  | true =>
    rw [edge_reset s p hr, edge_reset u p hr]
    exact .idle h.sameVisible.resetEdge rfl
  | false =>
    cases h with
    | idle hv hp => exact edge_agree_of_idle p hv hp hr
    | expand hv hp h16 hW =>
      have hd : decodeSeq s.seq = .ok (.uexp s.t) := by rw [State.seq, hp, decodeSeq_expand _ h16]
      exact edge_uop_agree p hv hr hd (execUexp_agree hv hp h16 hW)
    | winit hv hp ht hW =>
      have hd : decodeSeq s.seq = .ok .uwinit := by rw [State.seq, hp, ht, decodeSeq_winit]
      exact edge_uop_agree p hv hr hd (execUwinit_agree hv hW)
    | round hv hp hW hreg =>
      have hd : decodeSeq s.seq = .ok (.urnd s.t) := by rw [State.seq, hp, decodeSeq_round]
      exact edge_uop_agree p hv hr hd (execUrnd_agree hv hp hW hreg)
    | acc hv hp ht hreg =>
      have hd : decodeSeq s.seq = .ok .uacc := by rw [State.seq, hp, ht, decodeSeq_acc]
      exact edge_uop_agree p hv hr hd (execUacc_agree hv hreg)

/-- The host's turn touches neither `W` nor `a` to `h`. -/
theorem AgreeOnWritten.afterTurn {s u : State} (h : AgreeOnWritten s u) (turn : Turn) :
    AgreeOnWritten (s.afterTurn turn) (u.afterTurn turn) := by
  cases h with
  | idle hv hp => exact .idle (hv.afterTurn turn) hp
  | expand hv hp h16 hW => exact .expand (hv.afterTurn turn) hp h16 hW
  | winit hv hp ht hW => exact .winit (hv.afterTurn turn) hp ht hW
  | round hv hp hW hreg => exact .round (hv.afterTurn turn) hp hW hreg
  | acc hv hp ht hreg => exact .acc (hv.afterTurn turn) hp ht hreg

theorem step_agree (s u : State) (h : AgreeOnWritten s u) : OutcomesAgree AgreeOnWritten (step s) (step u) := by
  have hsame := h.sameVisible.hostTurn_eq
  cases hturn : hostTurn s.cmdReady s.digest s.host with
  | fault f => exact absurd hturn (hostTurn_not_fault _ _ _ f)
  | refused e =>
    rw [step_of_refused_turn hturn, step_of_refused_turn (hsame.trans hturn)]
    exact rfl
  | next turn =>
    rw [step_of_turn hturn, step_of_turn (hsame.trans hturn)]
    exact edge_agree turn.pins (h.afterTurn turn)

theorem OutcomesAgree.mono {R Q : State → State → Prop} (hRQ : ∀ a b, R a b → Q a b)
    {x y : Host.Outcome State Fault Refusal} (h : OutcomesAgree R x y) : OutcomesAgree Q x y := by
  cases x <;> cases y
  case next.next => exact hRQ _ _ h
  all_goals exact h

/-- Settles O47: every step keeps the agreement on what is written, and that contains the agreement on what shows. -/
theorem idleLeftoversNeverShow : Obligations.IdleLeftoversNeverShow :=
  fun _ _ hp hv k => (run_agree step_agree k (.idle hv hp)).mono fun _ _ h => h.sameVisible

end Sys2Proof.Machine
end

section
/-! The two ROMs against the definition of their entries by roots of primes (R29, R30). -/

namespace Sys2Proof.Machine

/-- Below 18 * 18 a composite number has a divisor below 18. -/
theorem prime_iff_no_divisor_below_18 {n : Nat} (h : n < 324) :
    n.Prime ↔ 2 ≤ n ∧ ∀ m < 18, 2 ≤ m → m * m ≤ n → ¬m ∣ n := by
  rw [Nat.prime_def_le_sqrt]
  refine and_congr_right fun _ => ⟨fun hp m _ h2 hm => hp m h2 (Nat.le_sqrt.2 hm), fun hp m h2 hm => ?_⟩
  have hmm : m * m ≤ n := Nat.le_sqrt.1 hm
  exact hp m (by nlinarith) h2 hmm

/-- The primes up to 311, sixteen a row. -/
def firstPrimes : List Nat :=
  [2, 3, 5, 7, 11, 13, 17, 19, 23, 29, 31, 37, 41, 43, 47, 53] ++
  [59, 61, 67, 71, 73, 79, 83, 89, 97, 101, 103, 107, 109, 113, 127, 131] ++
  [137, 139, 149, 151, 157, 163, 167, 173, 179, 181, 191, 193, 197, 199, 211, 223] ++
  [227, 229, 233, 239, 241, 251, 257, 263, 269, 271, 277, 281, 283, 293, 307, 311]

/-- Trial division, which the kernel evaluates quickly, finds them. -/
theorem filter_prime_range_312 : (List.range 312).filter Nat.Prime = firstPrimes := by
  have htrial : (List.range 312).filter Nat.Prime =
      (List.range 312).filter fun n => 2 ≤ n ∧ ∀ m < 18, 2 ≤ m → m * m ≤ n → ¬m ∣ n :=
    List.filter_congr fun n hn => decide_eq_decide.2
      (prime_iff_no_divisor_below_18 (Nat.lt_trans (List.mem_range.1 hn) (by decide)))
  rw [htrial]
  decide +kernel

/-- `w` is the first 32 bits of the fractional part of the `r`-th root of `p` (whose integer part is below 8): scaled by
`2^32`, the root lies between `n * 2^32 + w` and the number after it. -/
abbrev IsRootFraction (r p : Nat) (w : Word) : Prop :=
  ∃ n < 8, (n * 2 ^ 32 + w.toNat) ^ r ≤ p * 2 ^ (32 * r) ∧ p * 2 ^ (32 * r) < (n * 2 ^ 32 + w.toNat + 1) ^ r

theorem K_isRootFraction : ∀ t : Fin 64, IsRootFraction 3 (firstPrimes.getD t.val 0) (K t) := by
  decide +kernel

theorem IV_isRootFraction : ∀ j : Fin 8, IsRootFraction 2 (firstPrimes.getD j.val 0) IV[j] := by
  decide +kernel

/-- Settles O11: the list of primes is computed, then every entry of the two tables is compared with its root. -/
theorem romEntriesAreRootsOfPrimes : Obligations.RomEntriesAreRootsOfPrimes := by
  rintro ps rfl
  rw [filter_prime_range_312]
  exact ⟨rfl, K_isRootFraction, IV_isRootFraction⟩

end Sys2Proof.Machine
end

section
/-! The sixteen words and the 64 bytes of a block on the port (R52), and how the Segmenter fills them (R165, R166). -/

namespace Sys2Proof.Machine

/-- R52, R166: word `j` of a packed block. -/
@[simp] theorem blockWord_packBlock (m : BlockWords) (j : Nat) (hj : j < 16) : blockWord (packBlock m) j = m[j] := by
  unfold blockWord packBlock
  interval_cases j <;>
    simp (disch := decide) only [BitVec.extractLsb'_append_eq_of_le, BitVec.extractLsb'_append_eq_of_add_le,
      Nat.reduceMul, Nat.reduceSub, BitVec.extractLsb'_eq_self]

theorem blockWords_packBlock (m : BlockWords) : blockWords (packBlock m) = m :=
  Vector.ext fun j hj => by rw [blockWords_getElem, blockWord_packBlock]

/-- R52: bit `i` of a block is bit `i mod 32` of the word that holds it. -/
theorem getLsbD_eq_blockWord (b : Block) (i : Nat) (hi : i < 512) :
    b.getLsbD i = (blockWord b (15 - i / 32)).getLsbD (i % 32) := by
  have hlt : i % 32 < 32 := Nat.mod_lt i (by decide)
  have hpos : 480 - 32 * (15 - i / 32) + i % 32 = i := by omega
  simp [blockWord, hlt, hpos]

/-- R52: the sixteen words are all there is in a block. -/
theorem blockWords_injective : Function.Injective blockWords := by
  intro b c h
  have hword (j : Nat) (hj : j < 16) : blockWord b j = blockWord c j := by
    rw [← blockWords_getElem b j hj, ← blockWords_getElem c j hj, h]
  refine BitVec.eq_of_getLsbD_eq fun i hi => ?_
  rw [getLsbD_eq_blockWord b i hi, getLsbD_eq_blockWord c i hi, hword _ (by omega)]

/-- Settles O54: the words of a packed block are read off it, and a block is determined by its words. -/
theorem packAndSplitAreInverse : Obligations.PackAndSplitAreInverse :=
  ⟨blockWords_packBlock, fun b => blockWords_injective (blockWords_packBlock (blockWords b))⟩

theorem extractLsb'_extractLsb'_of_le {w n m : Nat} (x : BitVec w) (a c : Nat) (h : c + m ≤ n) :
    (x.extractLsb' a n).extractLsb' c m = x.extractLsb' (a + c) m := by
  apply BitVec.eq_of_getLsbD_eq
  intro i hi
  simp [hi, show c + i < n by omega, Nat.add_assoc]

/-- R52: byte `k` of a packed block is byte `k mod 4` of its word `k / 4`. -/
theorem packBlock_byte (m : BlockWords) (k : Nat) (hk : k < 64) :
    (packBlock m).extractLsb' (504 - 8 * k) 8 = m[k / 4].extractLsb' (24 - 8 * (k % 4)) 8 := by
  rw [← blockWord_packBlock m (k / 4) (by omega), blockWord, extractLsb'_extractLsb'_of_le _ _ _ (by omega),
    show 480 - 32 * (k / 4) + (24 - 8 * (k % 4)) = 504 - 8 * k by omega]

/-- R165: byte `l` of a segmented word, most significant first. -/
theorem segmentWord_byte (p : List Byte) (i j l : Nat) (hl : l < 4) :
    (segmentWord p i j).extractLsb' (24 - 8 * l) 8 = p.getD (64 * i + 4 * j + l) 0 := by
  unfold segmentWord
  interval_cases l <;>
    simp (disch := decide) only [BitVec.extractLsb'_append_eq_of_le, BitVec.extractLsb'_append_eq_of_add_le,
      Nat.reduceMul, Nat.reduceSub, BitVec.extractLsb'_eq_self, Nat.add_zero]

/-- R165: the Segmenter gives none exactly on a buffer of no whole number of blocks. -/
theorem segmentBlocks_eq_none_iff {p : List Byte} : segmentBlocks p = none ↔ p.length % 64 ≠ 0 := by
  unfold segmentBlocks
  split <;> simp_all

/-- R165: everything the Segmenter can give. -/
theorem segmentBlocks_eq_some {p : List Byte} {bs : List BlockWords} (h : segmentBlocks p = some bs) :
    p.length = 64 * bs.length ∧
    ∀ i j, (hi : i < bs.length) → (hj : j < 16) → bs[i][j] = segmentWord p i j := by
  have hdvd : p.length % 64 = 0 := by
    by_contra hne
    rw [segmentBlocks_eq_none_iff.2 hne] at h
    cases h
  rw [segmentBlocks_of_dvd hdvd] at h
  cases h
  refine ⟨?_, fun i j hi hj => ?_⟩
  · rw [List.length_map, List.length_range]
    omega
  · simp

/-- Settles O52: byte `k` of a chunk is byte `k mod 4` of the segmented word `k / 4`. -/
theorem segmentedBlocksHoldTheBytes : Obligations.SegmentedBlocksHoldTheBytes := by
  refine fun p => ⟨segmentBlocks_eq_none_iff, fun bs h => ?_⟩
  obtain ⟨hlen, hword⟩ := segmentBlocks_eq_some h
  refine ⟨hlen, fun i k hi hk b hb => ?_⟩
  have hindex : 64 * i + 4 * (k / 4) + k % 4 = 64 * i + k := by omega
  rw [packBlock_byte _ k hk, hword i (k / 4) hi (by omega), segmentWord_byte p i _ _ (Nat.mod_lt k (by decide)),
    hindex, List.getD_eq_getElem?_getD, hb, Option.getD_some]

end Sys2Proof.Machine
end

section
/-! Several instances: an interleaving is the own run of each of them (R65, R190). -/

namespace Sys2Proof.Machine

theorem System.getElem_set {n : NCores} (sys : System n) (i j : Fin n.val) (u : State) :
    (sys.set i.val u i.isLt)[j] = if i = j then u else sys[j] := by
  simp [Vector.getElem_set, Fin.ext_iff]

/-- A run is its first step and the rest of it. -/
theorem run_succ_eq_next {k : Nat} {s x : State} :
    run (k + 1) s = .next x ↔ ∃ u, step s = .next u ∧ run k u = .next x := by
  rw [run]
  cases step s <;> simp

/-- Two systems are the same when all their instances are. -/
theorem System.ext_iff {n : NCores} {sys x : System n} : sys = x ↔ ∀ j : Fin n.val, sys[j] = x[j] :=
  ⟨fun h j => by rw [h], fun h => Vector.ext fun j hj => h ⟨j, hj⟩⟩

/-- R65: a step of `i` leaves `j` as it was, and the two steps give the same system in either order. -/
theorem System.stepAt_comm {n : NCores} {sys x y : System n} {i j : Fin n.val} (hij : i ≠ j)
    (hi : sys.stepAt i = .next x) (hj : sys.stepAt j = .next y) :
    x[j] = sys[j] ∧ ∃ z, x.stepAt j = .next z ∧ y.stepAt i = .next z := by
  obtain ⟨u, hu, rfl⟩ := System.stepAt_eq_next.1 hi
  obtain ⟨w, hw, rfl⟩ := System.stepAt_eq_next.1 hj
  have hxj : (sys.set i.val u i.isLt)[j] = sys[j] := by rw [System.getElem_set, if_neg hij]
  have hyi : (sys.set j.val w j.isLt)[i] = sys[i] := by rw [System.getElem_set, if_neg hij.symm]
  refine ⟨hxj, _, System.stepAt_eq_next.2 ⟨w, hxj.symm ▸ hw, rfl⟩, System.stepAt_eq_next.2 ⟨u, hyi.symm ▸ hu, ?_⟩⟩
  exact Vector.set_comm u w (Fin.val_ne_of_ne hij)

/-- R65: the first step of an interleaving, seen by all instances: `i` has made its first step, the others none. -/
theorem forall_run_count_cons {n : NCores} {sys x : System n} {i : Fin n.val} {is : List (Fin n.val)} :
    (∀ j : Fin n.val, run ((i :: is).count j) sys[j] = .next x[j]) ↔
    ∃ u, step sys[i] = .next u ∧ ∀ j : Fin n.val, run (is.count j) (sys.set i.val u i.isLt)[j] = .next x[j] := by
  constructor
  · intro h
    have hi := h i
    rw [List.count_cons_self, run_succ_eq_next] at hi
    obtain ⟨u, hu, hrun⟩ := hi
    refine ⟨u, hu, fun j => ?_⟩
    rw [System.getElem_set]
    split
    next hij => exact hij ▸ hrun
    next hij => exact List.count_cons_of_ne hij ▸ h j
  · rintro ⟨u, hu, h⟩ j
    have hj := h j
    rw [System.getElem_set] at hj
    split at hj
    next hij =>
      subst hij
      rw [List.count_cons_self]
      exact run_succ_eq_next.2 ⟨u, hu, hj⟩
    next hij => exact (List.count_cons_of_ne hij).symm ▸ hj

/-- R65, R190: whatever the interleaving, by induction on it. -/
theorem systemRun_eq_next_iff {n : NCores} {sys x : System n} {is : List (Fin n.val)} :
    System.run is sys = .next x ↔ ∀ j : Fin n.val, run (is.count j) sys[j] = .next x[j] := by
  induction is generalizing sys with
  | nil => simpa using System.ext_iff
  | cons i is ih =>
    rw [forall_run_count_cons, System.run_cons_eq_next]
    simp only [System.stepAt_eq_next, ih]
    exact ⟨fun ⟨_, ⟨u, hu, hy⟩, h⟩ => ⟨u, hu, hy ▸ h⟩, fun ⟨u, hu, h⟩ => ⟨_, ⟨u, hu, rfl⟩, h⟩⟩

/-- Settles O59. -/
theorem instancesDoNotInteract : Obligations.InstancesDoNotInteract :=
  ⟨fun n j => System.reset_getElem n j.val j.isLt, fun _ _ _ _ _ _ => System.stepAt_comm,
    fun _ _ _ _ => systemRun_eq_next_iff⟩

end Sys2Proof.Machine
end

section
/-! A `COMPRESS` in progress, micro-operation by micro-operation (R114, R116): what it has written, and what the ports show. -/

namespace Sys2Proof.Machine

/-- R114: `k` edges with `rst` = 0 after the acceptance of a `COMPRESS` of the block `m` by a core whose Hash State was `hin`,
one case per phase; after the 114 micro-operations the core is idle. -/
inductive CompressAt (hin : Words8) (m : BlockWords) (k : Nat) (s : State) : Prop
  | expand (hk : k + 16 = s.t.toNat) (hp : s.phase = Phase.expand) (hH : s.H = hin)
      (hW : ∀ i, (hi : i < 64) → i < s.t.toNat → s.W[i] = (expand m)[i])
  | winit (hk : k = 48) (hp : s.phase = Phase.winit) (ht : s.t = 0) (hH : s.H = hin) (hW : s.W = expand m)
  | round (hk : k = s.t.toNat + 49) (hp : s.phase = Phase.round) (hH : s.H = hin) (hW : s.W = expand m)
      (hv : s.v = rounds (expand m) hin s.t.toNat)
  | acc (hk : k = 113) (hp : s.phase = Phase.acc) (ht : s.t = 0) (hH : s.H = hin) (hv : s.v = rounds (expand m) hin 64)
  | done (hk : 114 ≤ k) (hi : s.Idle) (hH : s.H = compress hin m)

variable {hin : Words8} {m : BlockWords} {k : Nat} {s : State}

/-- R32, R33, R114: `digest` shows the old Hash State and `cmd_ready` is 0 as long as micro-operations are left. -/
theorem CompressAt.busy (h : CompressAt hin m k s) (hk : k < 114) : s.phase ≠ Phase.idle ∧ s.H = hin := by
  cases h with
  | expand _ hp hH _ => exact ⟨by rw [hp]; decide, hH⟩
  | winit _ hp _ hH _ => exact ⟨by rw [hp]; decide, hH⟩
  | round _ hp hH _ _ => exact ⟨by rw [hp]; decide, hH⟩
  | acc _ hp _ hH _ => exact ⟨by rw [hp]; decide, hH⟩
  | done hk' _ _ => omega

/-- R114: from then on the core is idle, with the updated Hash State. -/
theorem CompressAt.idle (h : CompressAt hin m k s) (hk : 114 ≤ k) : s.Idle ∧ s.H = compress hin m := by
  cases h with
  | expand hk' _ _ _ => omega
  | winit hk' _ _ _ _ => omega
  | round hk' _ _ _ _ => omega
  | acc hk' _ _ _ _ => omega
  | done _ hi hH => exact ⟨hi, hH⟩

/-- R132: an expansion step on the finished schedule changes nothing. -/
theorem expand_set_expandWord (m : BlockWords) (t : Fin 64) (h16 : 16 ≤ t.val) :
    (expand m).set t.val (expandWord (expand m) t) t.isLt = expand m := by
  rw [← expand_filled m t.val t.isLt h16 t.isLt, Vector.set_getElem_self]

/-- R131: `UEXP` computes the next entry of the schedule of `m`. -/
theorem execUexp_compressAt (hk : k + 16 = s.t.toNat) (hp : s.phase = Phase.expand) (hH : s.H = hin)
    (hW : ∀ i, (hi : i < 64) → i < s.t.toNat → s.W[i] = (expand m)[i]) :
    ∃ u, execUexp s.t s = .next u ∧ CompressAt hin m (k + 1) u := by
  have h16 : 16 ≤ s.t.toNat := by omega
  have hset (i : Nat) (hi : i < 64) (hit : i ≤ s.t.toNat) :
      (s.W.set (counterIndex s.t).val (expandWord s.W (counterIndex s.t)) (counterIndex s.t).isLt)[i] = (expand m)[i] := by
    rw [set_expandWord_agree (t := counterIndex s.t) h16 hW i hi hit]
    simp only [expand_set_expandWord m (counterIndex s.t) h16]
  refine ⟨_, execUexp_of_le s _ h16, ?_⟩
  by_cases h63 : s.t = 63
  · have hlast : s.t.toNat = 63 := congrArg BitVec.toNat h63
    rw [State.advance_last _ _ h63]
    exact .winit (by omega) rfl rfl hH (Vector.ext fun i hi => hset i hi (by omega))
  · have hsucc : (s.t + 1).toNat = s.t.toNat + 1 := counter_succ_toNat h63
    rw [State.advance_of_ne _ _ h63]
    exact .expand (by rw [State.setT_t]; omega) hp hH fun i hi hit =>
      hset i hi (Nat.le_of_lt_succ (Nat.lt_of_lt_of_eq hit hsucc))

/-- R142: `URND` makes one more of the 64 rounds. -/
theorem execUrnd_compressAt (hk : k = s.t.toNat + 49) (hp : s.phase = Phase.round) (hH : s.H = hin) (hW : s.W = expand m)
    (hv : s.v = rounds (expand m) hin s.t.toNat) : ∃ u, execUrnd s.t s = .next u ∧ CompressAt hin m (k + 1) u := by
  have hround : mixRound s.v (K (counterIndex s.t)) s.W[counterIndex s.t] = rounds (expand m) hin (s.t.toNat + 1) := by
    rw [rounds_succ _ _ _ s.t.isLt, hv, hW]
    rfl
  refine ⟨_, rfl, ?_⟩
  by_cases h63 : s.t = 63
  · have hlast : s.t.toNat = 63 := congrArg BitVec.toNat h63
    rw [State.advance_last _ _ h63]
    exact .acc (by omega) rfl rfl hH (hround.trans (by rw [hlast]))
  · have hsucc : (s.t + 1).toNat = s.t.toNat + 1 := counter_succ_toNat h63
    rw [State.advance_of_ne _ _ h63]
    exact .round (by rw [State.setT_t]; omega) hp hH hW (hround.trans (by rw [State.setT_t, hsucc]))

/-- R116: an edge with `rst` = 0 performs the next micro-operation, whatever is on the command port; once the core is idle
again, an edge without a command changes nothing. -/
theorem CompressAt.edge {p : Pins} (h : CompressAt hin m k s) (hr : p.rst = false)
    (hp : k < 114 ∨ p.cmdValid = false) : ∃ u, edge p s = .next u ∧ CompressAt hin m (k + 1) u := by
  cases h with
  | expand hk hphase hH hW =>
    rw [edge_uop s p hr (i := .uexp s.t) (by rw [State.seq, hphase, decodeSeq_expand _ (by omega)])]
    exact execUexp_compressAt hk hphase hH hW
  | winit hk hphase ht hH hW =>
    rw [edge_uop s p hr (i := .uwinit) (by rw [State.seq, hphase, ht, decodeSeq_winit])]
    exact ⟨_, rfl, .round (by rw [hk]; rfl) rfl hH hW hH⟩
  | round hk hphase hH hW hv =>
    rw [edge_uop s p hr (i := .urnd s.t) (by rw [State.seq, hphase, decodeSeq_round])]
    exact execUrnd_compressAt hk hphase hH hW hv
  | acc hk hphase ht hH hv =>
    rw [edge_uop s p hr (i := .uacc) (by rw [State.seq, hphase, ht, decodeSeq_acc])]
    exact ⟨_, rfl, .done (by omega) ⟨rfl, rfl⟩ (show addWords s.H s.v = _ by rw [hH, hv, compress])⟩
  | done hk hi hH =>
    exact ⟨s, edge_idle s p hr hi (hp.resolve_left (by omega)), .done (by omega) hi hH⟩

/-- The host's turn touches nothing that a `COMPRESS` in progress reads or writes. -/
theorem CompressAt.afterTurn (h : CompressAt hin m k s) (turn : Turn) : CompressAt hin m k (s.afterTurn turn) := by
  cases h with
  | expand hk hp hH hW => exact .expand hk hp hH hW
  | winit hk hp ht hH hW => exact .winit hk hp ht hH hW
  | round hk hp hH hW hv => exact .round hk hp hH hW hv
  | acc hk hp ht hH hv => exact .acc hk hp ht hH hv
  | done hk hi hH => exact .done hk hi hH

/-- The host's part of a step, given its turn. -/
theorem step_host_of_turn {s u : State} {turn : Turn} (ht : hostTurn s.cmdReady s.digest s.host = .next turn)
    (h : step s = .next u) : u.host = turn.rest ∧ u.samples = s.samples ++ turn.samples := by
  obtain ⟨turn', ht', hu⟩ := step_takes_turn h
  cases ht.symm.trans ht'
  exact hu

/-- R116: the same for a step of the host and CORE together. -/
theorem CompressAt.step {turn : Turn} (h : CompressAt hin m k s)
    (ht : hostTurn s.cmdReady s.digest s.host = .next turn) (hr : turn.pins.rst = false)
    (hp : k < 114 ∨ turn.pins.cmdValid = false) : ∃ u, step s = .next u ∧ CompressAt hin m (k + 1) u ∧
      u.host = turn.rest ∧ u.samples = s.samples ++ turn.samples := by
  obtain ⟨u, hu, hnext⟩ := (h.afterTurn turn).edge hr hp
  have hstep := (step_of_turn ht).trans hu
  exact ⟨u, hstep, hnext, step_host_of_turn ht hstep⟩

/-- R112: what an accepted `COMPRESS` leaves is the schedule of its block below entry 16. -/
theorem compressAt_zero (s : State) (b : Block) : CompressAt s.H (blockWords b) 0
    ((s.setW (loadBlock s.W (blockWords b))).setSeq Phase.expand 16) := by
  refine .expand rfl rfl (by simp) fun i hi h16 => ?_
  have hi16 : i < 16 := h16
  simp [loadBlock_getElem, hi16, expand_getElem_of_lt_16]

/-- R112: the acceptance edge. -/
theorem step_accepts_compress {turn : Turn} (hi : s.Idle) (ht : hostTurn s.cmdReady s.digest s.host = .next turn)
    (hr : turn.pins.rst = false) (hv : turn.pins.cmdValid = true) (ho : turn.pins.cmdOp = 1) :
    ∃ u, step s = .next u ∧ CompressAt s.H (blockWords turn.pins.cmdBlock) 0 u ∧
      u.host = turn.rest ∧ u.samples = s.samples ++ turn.samples := by
  have hstep := step_of_turn ht
  rw [edge_command (s.afterTurn turn) _ hr hi hv, Pins.cmd, decodeCmd_cmdWord, ho, if_neg (by decide), exec,
    execCompress_ready (s.afterTurn turn) _ hi.1] at hstep
  exact ⟨_, hstep, compressAt_zero (s.afterTurn turn) _, step_host_of_turn ht hstep⟩

/-- R114: edges at which the host drives neither a reset nor a command. -/
theorem CompressAt.run_drive {ps : List Pins} {r : List HostMove} (h : CompressAt hin m k s)
    (hps : ∀ p ∈ ps, p.rst = false ∧ p.cmdValid = false) (hhost : s.host = ps.map .drive ++ r) :
    ∃ u, run ps.length s = .next u ∧ CompressAt hin m (k + ps.length) u ∧ u.host = r ∧ u.samples = s.samples := by
  induction ps generalizing k s with
  | nil => exact ⟨s, rfl, h, hhost, rfl⟩
  | cons p ps ih =>
    obtain ⟨⟨hr, hv⟩, hps⟩ := List.forall_mem_cons.1 hps
    have hturn : hostTurn s.cmdReady s.digest s.host = .next ⟨p, ps.map .drive ++ r, []⟩ := by
      rw [hhost]
      rfl
    obtain ⟨w, hw, hat, hwhost, hwsamples⟩ := h.step hturn hr (.inr hv)
    obtain ⟨u, hu, huat, huhost, husamples⟩ := ih hat hps hwhost
    refine ⟨u, (run_succ_of_step hw _).trans hu, ?_, huhost, ?_⟩
    · rwa [List.length_cons, Nat.add_comm ps.length 1, ← Nat.add_assoc]
    · rw [husamples, hwsamples, List.append_nil]

/-- R57, R60: what the two ports show `k` edges after the acceptance. -/
theorem CompressAt.sample (h : CompressAt hin m k s) (d : ResultName) : (⟨d, s.cmdReady, s.digest⟩ : Sample) =
    if k < 114 then ⟨d, false, digestOf hin⟩ else ⟨d, true, digestOf (compress hin m)⟩ := by
  split
  next hk =>
    obtain ⟨hbusy, hH⟩ := h.busy hk
    rw [(State.cmdReady_false_iff s).2 hbusy, State.digest, hH]
  next hk =>
    obtain ⟨hidle, hH⟩ := h.idle (Nat.le_of_not_lt hk)
    rw [(State.cmdReady_iff s).2 hidle.1, State.digest, hH]

end Sys2Proof.Machine
end

section
/-! Samples of the ports (R57, R60, R172). -/

namespace Sys2Proof.Machine

/-- R57: a sample takes no edge; it adds its entry to the samples and leaves the step as it is. -/
theorem step_sample {s : State} {d : ResultName} {r : List HostMove} (h : s.host = .sample d :: r) :
    step s = step ((s.setHost r).addSamples [⟨d, s.cmdReady, s.digest⟩]) := by
  have hturn : hostTurn s.cmdReady s.digest s.host =
      afterSample ⟨d, s.cmdReady, s.digest⟩ (hostTurn s.cmdReady s.digest r) := by
    rw [h]
    rfl
  cases hr : hostTurn s.cmdReady s.digest r with
  | next turn =>
    rw [hr] at hturn
    rw [step_of_turn hturn, step_of_turn (turn := turn) hr]
    simp [State.afterTurn, State.setHost_eq, State.addSamples_eq]
  | fault f => exact absurd hr (hostTurn_not_fault _ _ _ f)
  | refused e =>
    rw [hr] at hturn
    rw [step_of_refused_turn hturn, step_of_refused_turn (e := e) hr]

/-- R57: so do any number of samples at one edge. -/
theorem step_samples {s : State} {ds : List ResultName} {r : List HostMove} (h : s.host = ds.map .sample ++ r) :
    step s = step ((s.setHost r).addSamples (ds.map fun d => ⟨d, s.cmdReady, s.digest⟩)) := by
  induction ds generalizing s with
  | nil =>
    have hs : s = (s.setHost r).addSamples [] := by
      simp [State.setHost_eq, State.addSamples_eq, ← show s.host = r from h]
    exact congrArg step hs
  | cons d ds ih =>
    rw [step_sample h, ih rfl]
    exact congrArg (fun xs => step { s with host := r, samples := xs }) (List.append_assoc s.samples [_] _)

/-- R57, R60: whatever a step adds to the samples shows the ports at its edge. -/
theorem step_adds_port_samples {s u : State} (h : step s = .next u) : ∃ xs, u.samples = s.samples ++ xs ∧
    ∀ x ∈ xs, x.digest = s.digest ∧ (x.ready = true ↔ s.phase = 0) := by
  obtain ⟨turn, ht, -, hsamples⟩ := step_takes_turn h
  refine ⟨turn.samples, hsamples, fun x hx => ?_⟩
  obtain ⟨hready, hdigest⟩ := hostTurn_samples _ _ ht x hx
  exact ⟨hdigest, hready ▸ State.cmdReady_iff s⟩

/-- R60, R114: a sample after a `COMPRESS` accepted by an idle core and any number of edges without a reset or a command. -/
theorem sample_after_compress {s : State} {b : Block} {ps : List Pins} {d : ResultName} (hi : s.Idle)
    (hps : ∀ p ∈ ps, p.rst = false ∧ p.cmdValid = false)
    (hhost : s.host = .offer ((1 : BitVec 1) ++ b) :: (ps.map .drive ++ [.sample d])) :
    ∃ u, run (1 + ps.length + 1) s = .next u ∧ u.host = [] ∧
      u.samples = s.samples ++ [if ps.length < 114 then ⟨d, false, s.digest⟩
        else ⟨d, true, digestOf (compress s.H (blockWords b))⟩] := by
  have hoffer : hostTurn s.cmdReady s.digest s.host =
      .next ⟨Pins.offering (cmdWord 1 b), ps.map .drive ++ [.sample d], []⟩ := by
    rw [hhost, (State.cmdReady_iff s).2 hi.1]
    rfl
  obtain ⟨a, ha, haat, hahost, hasamples⟩ :=
    step_accepts_compress hi hoffer rfl rfl (cmdOpOf_cmdWord 1 b)
  obtain ⟨c, hc, hcat, hchost, hcsamples⟩ := haat.run_drive hps hahost
  have hsample : hostTurn c.cmdReady c.digest c.host = .next ⟨Pins.quiet, [], [⟨d, c.cmdReady, c.digest⟩]⟩ := by
    rw [hchost]
    rfl
  obtain ⟨u, hu, -, huhost, husamples⟩ := hcat.step hsample rfl (.inr rfl)
  have hruna : run 1 s = .next a := run_succ_of_step ha 0
  have hrunc : run (1 + ps.length) s = .next c := (run_add hruna _).trans hc
  have hblock : (Pins.offering (cmdWord 1 b)).cmdBlock = b := cmdBlockOf_cmdWord 1 b
  refine ⟨u, (run_add hrunc 1).trans (run_succ_of_step hu 0), huhost, ?_⟩
  rw [husamples, hcsamples, hasamples, hcat.sample d, hblock, Nat.zero_add, List.append_nil, State.digest]

/-- Settles O60. -/
theorem samplesShowThePorts : Obligations.SamplesShowThePorts :=
  ⟨fun _ _ _ => step_samples, fun _ _ => step_adds_port_samples, fun _ _ _ _ => sample_after_compress⟩

end Sys2Proof.Machine
end

section
/-! The decoder and the encoder of the two formats (spec/30_encoding.md R71 to R76). -/

namespace Sys2Proof

/-- Settles O1, one case per row of R74. -/
theorem decodeOfEncodeIsIdentity : Obligations.DecodeOfEncodeIsIdentity := by
  intro i hwf
  cases i with
  | init => exact congrArg Except.ok (decodeCmd_cmdWord 0 0)
  | compress b => exact congrArg Except.ok (decodeCmd_cmdWord 1 b)
  | uexp t => exact decodeSeq_expand t (of_decide_eq_true hwf)
  | uwinit => exact decodeSeq_winit
  | urnd t => exact decodeSeq_round t
  | uacc => exact decodeSeq_acc

/-- Settles O4. -/
theorem everyCommandWordIsACommand : Obligations.EveryCommandWordIsACommand :=
  fun b => ⟨congrArg Except.ok (decodeCmd_cmdWord 0 b), congrArg Except.ok (decodeCmd_cmdWord 1 b)⟩

/-- R75: a command word decodes to an instruction whose word it is, up to the block bits of `INIT`. -/
theorem decodeCmd_canonical (w : CmdWord) : (decodeCmd w).wellFormed = true ∧
    (decodeCmd w ≠ .init → encode (decodeCmd w) = .cmd w) ∧
    (decodeCmd w = .init → ∃ b : Block, Encoded.cmd w = .cmd ((0 : BitVec 1) ++ b)) := by
  obtain ⟨op, b, rfl⟩ : ∃ op b, w = cmdWord op b := ⟨_, _, (cmdWord_fields w).symm⟩
  rw [decodeCmd_cmdWord]
  rcases bit_zero_or_one op with rfl | rfl
  · exact ⟨rfl, fun h => absurd rfl h, fun _ => ⟨b, rfl⟩⟩
  · exact ⟨rfl, fun _ => rfl, nofun⟩

/-- R74: a sequencer word decodes only to the well-formed instruction whose word it is. -/
theorem decodeSeq_canonical {w : SeqWord} {i : Instr} (h : decodeSeq w = .ok i) :
    i.wellFormed = true ∧ encode i = .seq w ∧ i ≠ .init := by
  obtain ⟨p, t, rfl⟩ : ∃ p t, w = seqWord p t := ⟨_, _, (seqWord_fields w).symm⟩
  rcases decodeSeq_cases p t h with ⟨rfl, h16, rfl⟩ | ⟨rfl, rfl, rfl⟩ | ⟨rfl, rfl⟩ | ⟨rfl, rfl, rfl⟩
  · exact ⟨decide_eq_true h16, rfl, nofun⟩
  · exact ⟨rfl, rfl, nofun⟩
  · exact ⟨rfl, rfl, nofun⟩
  · exact ⟨rfl, rfl, nofun⟩

/-- Settles O2, one case per format. -/
theorem encodeOfDecodeIsCanonical : Obligations.EncodeOfDecodeIsCanonical := by
  intro e i h
  cases e with
  | cmd w =>
    cases h
    exact decodeCmd_canonical w
  | seq w =>
    obtain ⟨hwf, henc, hinit⟩ := decodeSeq_canonical h
    exact ⟨hwf, fun _ => henc, fun hi => absurd hi hinit⟩

/-- Settles O3: the command words are put together from their two fields, the sequencer words are evaluated. -/
theorem sampleWordsDecode : Obligations.SampleWordsDecode := by
  have hinit : (0 : CmdWord) = (0 : BitVec 1) ++ (0 : Block) := by decide +kernel
  have hcompress : BitVec.ofNat 513 (2 ^ 512 + 2 ^ 480 + 3) = (1 : BitVec 1) ++ BitVec.ofNat 512 (2 ^ 480 + 3) := by
    decide +kernel
  refine ⟨?_, ?_, by decide, by decide, by decide, by decide, by decide⟩
  · rw [hinit]
    exact (everyCommandWordIsACommand 0).1
  · rw [hcompress]
    exact (everyCommandWordIsACommand _).2

/-- R76: the sequencer words that select a micro-operation. -/
theorem decodeSeq_eq_ok_iff (p : BitVec 3) (t : BitVec 6) : (∃ i, decodeSeq (seqWord p t) = .ok i) ↔
    Machine.SeqReachable p t ∧ ¬(p = Machine.Phase.idle ∧ t = 0) := by
  constructor
  · rintro ⟨i, h⟩
    rcases decodeSeq_cases p t h with ⟨rfl, h16, -⟩ | ⟨rfl, rfl, -⟩ | ⟨rfl, -⟩ | ⟨rfl, rfl, -⟩
    · exact ⟨.inr (.inl ⟨rfl, h16⟩), nofun⟩
    · exact ⟨.inr (.inr (.inl ⟨rfl, rfl⟩)), nofun⟩
    · exact ⟨.inr (.inr (.inr (.inl rfl))), nofun⟩
    · exact ⟨.inr (.inr (.inr (.inr ⟨rfl, rfl⟩))), nofun⟩
  · rintro ⟨hidle | ⟨rfl, h16⟩ | ⟨rfl, rfl⟩ | rfl | ⟨rfl, rfl⟩, hbusy⟩
    · exact absurd hidle hbusy
    · exact ⟨_, decodeSeq_expand t h16⟩
    · exact ⟨_, decodeSeq_winit⟩
    · exact ⟨_, decodeSeq_round t⟩
    · exact ⟨_, decodeSeq_acc⟩

/-- Settles O5: the number of words is counted by evaluating the decoder on all 512. -/
theorem sequencerWordsThatSelect : Obligations.SequencerWordsThatSelect :=
  ⟨decodeSeq_eq_ok_iff, by decide +kernel⟩

end Sys2Proof
end

section
/-! The step and the decoder (R72, R76, R116): which instruction an edge with `rst` = 0 performs. -/

namespace Sys2Proof.Machine

/-- Settles O26, along the rows of R116. -/
theorem stepPerformsTheDecodedInstruction : Obligations.StepPerformsTheDecodedInstruction := by
  rintro s turn ht hr s1 rfl
  rw [step_of_turn ht]
  refine ⟨fun i hd => ?_, fun hp h0 hv i hd => ?_, fun hp h0 hv => ?_⟩
  · exact edge_uop (s.afterTurn turn) _ hr hd
  · cases hd
    exact edge_command (s.afterTurn turn) _ hr ⟨hp, h0⟩ hv
  · exact edge_idle (s.afterTurn turn) _ hr ⟨hp, h0⟩ hv

/-- R28, R76: an unreachable word is not the idle one, and the decoder rejects it. -/
theorem decodeSeq_error_of_unreachable {s : State} (h : ¬SeqReachable s.phase s.t) :
    s.seq ≠ 0 ∧ ∃ e, decodeSeq s.seq = .error e := by
  refine ⟨fun hz => h (.inl ((seq_eq_zero_iff s).1 hz)), ?_⟩
  cases hd : decodeSeq s.seq with
  | error e => exact ⟨e, rfl⟩
  | ok i => exact absurd ((decodeSeq_eq_ok_iff s.phase s.t).1 ⟨i, hd⟩).1 h

/-- Settles O41. -/
theorem unreachableWordIsRefused : Obligations.UnreachableWordIsRefused := by
  intro s turn ht hr hreach
  obtain ⟨hz, e, hd⟩ := decodeSeq_error_of_unreachable hreach
  rw [step_of_turn ht]
  exact edge_unreachable (s.afterTurn turn) _ hr hz hd

/-- Settles O16. -/
theorem uexpBelow16IsRefused : Obligations.UexpBelow16IsRefused :=
  fun _ _ h => if_neg (Nat.not_le.2 h)

/-- A table word is a sequencer word or a command word, as its format says. -/
theorem tableWord_eq_some {nbits w : Nat} {e : Encoded} (h : tableWord nbits w = some e) :
    (nbits ≤ uopTableBits ∧ e = .seq (BitVec.ofNat 9 w)) ∨ (¬nbits ≤ uopTableBits ∧ e = .cmd (cmdOfNat w)) := by
  unfold tableWord at h
  split at h
  next hn =>
    split at h
    · exact .inl ⟨hn, (Option.some.inj h).symm⟩
    · cases h
  next hn =>
    split at h
    · exact .inr ⟨hn, (Option.some.inj h).symm⟩
    · cases h

theorem decodeTableWord_eq_some {nbits w : Nat} {i : Instr} (h : decodeTableWord nbits w = some i) :
    ∃ e, tableWord nbits w = some e ∧ decode e = .ok i := by
  unfold decodeTableWord at h
  split at h
  · cases h
  next e he =>
    split at h
    next j hd =>
      cases h
      exact ⟨e, he, hd⟩
    · cases h

/-- The two places of a table word. -/
theorem withFetchWord_uop (s : State) {nbits : Nat} (w : Nat) (h : nbits ≤ uopTableBits) : s.withFetchWord nbits w =
    (s.setSeq (seqPhaseOf (BitVec.ofNat 9 w)) (seqCounterOf (BitVec.ofNat 9 w))).setHost
      (.drive Pins.quiet :: s.host) :=
  if_pos h

theorem withFetchWord_command (s : State) {nbits : Nat} (w : Nat) (h : ¬nbits ≤ uopTableBits) :
    s.withFetchWord nbits w = (s.setSeq Phase.idle 0).setHost (.offer (cmdOfNat w) :: s.host) :=
  if_neg h

/-- A turn without a sample leaves only the host's moves changed. -/
theorem afterTurn_no_samples (s : State) (p : Pins) (r : List HostMove) : s.afterTurn ⟨p, r, []⟩ = s.setHost r := by
  simp [State.afterTurn, State.addSamples_eq, State.setHost_eq]

/-- Settles O6, one case per format. -/
theorem placedWordIsPerformedNext : Obligations.PlacedWordIsPerformedNext := by
  intro s nbits w i h
  obtain ⟨e, he, hd⟩ := decodeTableWord_eq_some h
  rcases tableWord_eq_some he with ⟨hn, rfl⟩ | ⟨hn, rfl⟩
  · rw [withFetchWord_uop s w hn, step_of_turn (turn := ⟨Pins.quiet, s.host, []⟩) rfl, afterTurn_no_samples]
    exact edge_uop _ _ rfl ((congrArg decodeSeq (seqWord_fields _)).trans hd)
  · cases hd
    rw [withFetchWord_command s w hn, step_of_turn (turn := ⟨Pins.offering (cmdOfNat w), s.host, []⟩) rfl,
      afterTurn_no_samples, edge_command _ _ rfl ⟨rfl, rfl⟩ rfl]
    exact congrArg (exec · _) (congrArg decodeCmd (cmdWord_fields _))

/-- The step depends on the host's moves through the host's turn only. -/
theorem step_setHost {s : State} {ms : List HostMove}
    (h : hostTurn s.cmdReady s.digest s.host = hostTurn s.cmdReady s.digest ms) : step s = step (s.setHost ms) := by
  unfold step stepEdge
  rw [h]
  rfl

/-- R57, R78: `DIGEST` on an idle core is a sample of the ports. -/
theorem step_digest_of_idle {s : State} {d : ResultName} {r : List HostMove} (h : s.host = .digest d :: r)
    (hp : s.phase = Phase.idle) : step s = step ((s.setHost r).addSamples [⟨d, true, s.digest⟩]) := by
  have hready := (State.cmdReady_iff s).2 hp
  have hturn : hostTurn s.cmdReady s.digest s.host = hostTurn s.cmdReady s.digest (.sample d :: r) := by
    rw [h, hready]
    rfl
  rw [step_setHost hturn, step_sample (s := s.setHost _) rfl, ← hready]
  rfl

/-- R78: `DIGEST` in a busy core waits. -/
theorem hostTurn_digest_of_busy {s : State} {d : ResultName} {r : List HostMove} (h : s.host = .digest d :: r)
    (hp : s.phase ≠ Phase.idle) :
    hostTurn s.cmdReady s.digest s.host = .next ⟨Pins.quiet, .digest d :: r, []⟩ := by
  rw [h, (State.cmdReady_false_iff s).2 hp]
  rfl

/-- Settles O56. -/
theorem digestSamplesWithoutSideEffect : Obligations.DigestSamplesWithoutSideEffect := by
  intro s d r h
  refine ⟨step_digest_of_idle h, fun hp u hu => ?_⟩
  obtain ⟨hhost, hsamples⟩ := step_host_of_turn (hostTurn_digest_of_busy h hp) hu
  exact ⟨hhost, hsamples.trans (List.append_nil _)⟩

end Sys2Proof.Machine
end

section
/-! The text of a `COMPRESS` line (R77): its hexadecimal digits, its pieces, and its sixteen words. -/

namespace Sys2Proof.Machine

/-- R77: the value of the digit that is printed. -/
theorem hexDigit_hexChar : ∀ x : BitVec 4, hexDigit (hexChar x) = some x.toNat := by decide

@[simp] theorem hexText_length {w : Nat} (x : BitVec w) (n : Nat) : (hexText x n).length = n := by
  induction n with
  | zero => rfl
  | succ n ih => simp [hexText, ih]

/-- R77: reading `n` printed digits. -/
theorem hexNumber_hexText {w : Nat} (x : BitVec w) (n acc : Nat) :
    hexNumber acc (hexText x n) = some (16 ^ n * acc + x.toNat % 16 ^ n) := by
  induction n generalizing acc with
  | zero => simp [hexText, hexNumber, Nat.mod_one]
  | succ n ih =>
    have hdigit : (x.extractLsb' (4 * n) 4).toNat = x.toNat / 16 ^ n % 16 := by
      simp [BitVec.extractLsb'_toNat, Nat.shiftRight_eq_div_pow, Nat.pow_mul]
    simp only [hexText, hexNumber, hexDigit_hexChar, ih, hdigit]
    rw [Nat.mod_pow_succ]
    ring_nf

/-- R77: a word printed with eight digits is read back. -/
theorem parseWord_hexText (x : Word) : parseWord (hexText x 8) = some x := by
  have hlt : x.toNat < 16 ^ 8 := x.isLt
  rw [parseWord, if_pos (hexText_length x 8), hexNumber_hexText, Nat.mul_zero, Nat.zero_add, Nat.mod_eq_of_lt hlt,
    Option.map_some, BitVec.ofNat_toNat, BitVec.setWidth_eq]

/-- R77: sixteen printed words are read back as the words of a block. -/
theorem parseBlock_hexText (m : BlockWords) : parseBlock (m.toList.map (hexText · 8)) = some m := by
  have hwords : ((m.toList.map (hexText · 8)).map fun p => (parseWord p).getD 0) = m.toList := by
    simp only [List.map_map, Function.comp_def, parseWord_hexText, Option.getD_some, List.map_id']
  have hall : (m.toList.map (hexText · 8)).all (fun p => (parseWord p).isSome) = true :=
    List.all_eq_true.2 (List.forall_mem_map.2 fun x _ => by rw [parseWord_hexText, Option.isSome_some])
  unfold parseBlock
  simp only [hwords, hall, Vector.length_toList, dif_pos, if_true]
  exact congrArg some (Vector.ext fun j hj => by simp)

/-- A character that does not end a piece of a line and opens no quoted part. -/
def PlainChar (c : Char) : Prop := c ≠ '"' ∧ c ≠ ';' ∧ c ≠ ' ' ∧ c ≠ '\t' ∧ c ≠ '\r'

theorem plainChar_hexChar : ∀ x : BitVec 4, PlainChar (hexChar x) := by
  unfold PlainChar
  decide

theorem plainChar_of_mem_hexText {w : Nat} (x : BitVec w) (n : Nat) : ∀ c ∈ hexText x n, PlainChar c := by
  induction n with
  | zero => exact List.forall_mem_nil _
  | succ n ih => exact List.forall_mem_cons.2 ⟨plainChar_hexChar _, ih⟩

/-- R77: plain characters are added to the piece being read. -/
theorem pieces_plain_append {cs : List Char} (h : ∀ c ∈ cs, PlainChar c) (cur rest : List Char) :
    pieces false cur (cs ++ rest) = pieces false (cs.reverse ++ cur) rest := by
  induction cs generalizing cur with
  | nil => rfl
  | cons c cs ih =>
    obtain ⟨⟨hq, hs, hb, htab, hcr⟩, hcs⟩ := List.forall_mem_cons.1 h
    simp [pieces, hq, hs, hb, htab, hcr, ih hcs]

/-- R77: a line of plain words, a blank before each word but the first, is cut into these words. -/
theorem pieces_words {p : List Char} {ps : List (List Char)} (h : ∀ q ∈ p :: ps, q ≠ [] ∧ ∀ c ∈ q, PlainChar c) :
    pieces false [] (p ++ ps.flatMap (' ' :: ·)) = p :: ps := by
  induction ps generalizing p with
  | nil =>
    obtain ⟨⟨hne, hp⟩, -⟩ := List.forall_mem_cons.1 h
    rw [pieces_plain_append hp]
    simp [pieces, hne]
  | cons q qs ih =>
    obtain ⟨⟨hne, hp⟩, hqs⟩ := List.forall_mem_cons.1 h
    rw [pieces_plain_append hp, List.flatMap_cons, List.cons_append]
    simp [pieces, hne, ih hqs]

theorem pieces_compressLine (m : BlockWords) : pieces false [] (compressLine m) =
    ['C', 'O', 'M', 'P', 'R', 'E', 'S', 'S'] :: m.toList.map (hexText · 8) := by
  have hname : ∀ c ∈ ['C', 'O', 'M', 'P', 'R', 'E', 'S', 'S'], PlainChar c := by
    simp [PlainChar]
  have hline : compressLine m =
      ['C', 'O', 'M', 'P', 'R', 'E', 'S', 'S'] ++ (m.toList.map (hexText · 8)).flatMap (' ' :: ·) := by
    rw [compressLine, List.flatMap_map]
  rw [hline]
  refine pieces_words (List.forall_mem_cons.2 ⟨⟨nofun, hname⟩, List.forall_mem_map.2 fun x _ => ?_⟩)
  exact ⟨nofun, plainChar_of_mem_hexText x 8⟩

/-- Settles O58. -/
theorem compressLineAssembles : Obligations.CompressLineAssembles := by
  intro m
  unfold assembleLine
  rw [pieces_compressLine]
  simp only [parseBlock_hexText]
  rfl

end Sys2Proof.Machine
end

section
/-! The functions on words, bit by bit (spec/40_primitives.md R91 to R98); rotation and shift as arithmetic too. -/

namespace Sys2Proof.Machine

/-- R91, for the ten amounts in use and every other one below 32. -/
theorem getLsbD_rotr (x : Word) {i n : Nat} (hi : i < 32) (hn : n < 32) :
    (rotr x n).getLsbD i = x.getLsbD ((i + n) % 32) := by
  rw [rotr, BitVec.getLsbD_rotateRight_of_lt hn]
  by_cases hlow : i < 32 - n
  · have hpos : (i + n) % 32 = n + i := by omega
    simp [hlow, hpos]
  · have hpos : (i + n) % 32 = i - (32 - n) := by omega
    simp [hlow, hpos, hi]

/-- R91: the low `n` bits move to the top, the others down by `n`; the two parts do not overlap. -/
theorem toNat_rotr (x : Word) {n : Nat} (hn : n < 32) :
    (rotr x n).toNat = x.toNat / 2 ^ n + x.toNat % 2 ^ n * 2 ^ (32 - n) := by
  have hsplit : 2 ^ 32 = 2 ^ n * 2 ^ (32 - n) := by rw [← Nat.pow_add, Nat.add_sub_cancel' hn.le]
  have hlow : x.toNat / 2 ^ n < 2 ^ (32 - n) := Nat.div_lt_of_lt_mul (hsplit ▸ x.isLt)
  have hhigh : x.toNat <<< (32 - n) % 2 ^ 32 = (x.toNat % 2 ^ n) <<< (32 - n) := by
    rw [Nat.shiftLeft_eq, Nat.shiftLeft_eq, hsplit, Nat.mul_mod_mul_right]
  rw [rotr, BitVec.toNat_rotateRight, Nat.mod_eq_of_lt hn, hhigh, Nat.shiftRight_eq_div_pow, Nat.or_comm,
    ← Nat.shiftLeft_add_eq_or_of_lt hlow, Nat.shiftLeft_eq, Nat.add_comm]

/-- R92: a bit read from above bit 31 is 0. -/
theorem getLsbD_shr (x : Word) (n i : Nat) :
    (shr x n).getLsbD i = (decide (i + n ≤ 31) && x.getLsbD (i + n)) := by
  rw [shr, BitVec.getLsbD_ushiftRight, Nat.add_comm n i]
  by_cases hin : i + n ≤ 31
  · simp [hin]
  · rw [BitVec.getLsbD_of_ge x (i + n) (by omega), Bool.and_false]

theorem toNat_shr (x : Word) (n : Nat) : (shr x n).toNat = x.toNat / 2 ^ n := by
  rw [shr, BitVec.toNat_ushiftRight, Nat.shiftRight_eq_div_pow]

/-- R98: the exclusive or of the three products of two bits says whether at least two of the bits are 1. -/
theorem xor_of_ands_eq_majority : ∀ a b c : Bool,
    ((a && b) ^^ (a && c) ^^ (b && c)) = decide (2 ≤ a.toNat + b.toNat + c.toNat) := by
  decide

/-- Settles O7. -/
theorem rotateRightMovesBits : Obligations.RotateRightMovesBits := by
  intro x n _ h31
  have hn : n < 32 := Nat.lt_succ_of_le h31
  exact ⟨fun i hi => getLsbD_rotr x hi hn, toNat_rotr x hn⟩

/-- Settles O8. -/
theorem shiftRightEntersZeros : Obligations.ShiftRightEntersZeros :=
  fun x n => ⟨getLsbD_shr x n, toNat_shr x n⟩

/-- Settles O9: each of the four is the exclusive or of words whose bits R91 and R92 give. -/
theorem sigmaFunctionsBitByBit : Obligations.SigmaFunctionsBitByBit := by
  intro x i hi
  refine ⟨?_, ?_, ?_, ?_⟩
  · simp (disch := decide) only [ssig0, BitVec.getLsbD_xor, getLsbD_rotr x hi, getLsbD_shr]
  · simp (disch := decide) only [ssig1, BitVec.getLsbD_xor, getLsbD_rotr x hi, getLsbD_shr]
  · simp (disch := decide) only [bsig0, BitVec.getLsbD_xor, getLsbD_rotr x hi]
  · simp (disch := decide) only [bsig1, BitVec.getLsbD_xor, getLsbD_rotr x hi]

/-- Settles O10: `Ch` along the bit of `x`, `Maj` along all three bits. -/
theorem chooseAndMajorityBitByBit : Obligations.ChooseAndMajorityBitByBit := by
  intro x y z i hi
  constructor
  · rw [ch, BitVec.getLsbD_xor, BitVec.getLsbD_and, BitVec.getLsbD_and, BitVec.getLsbD_not]
    cases x.getLsbD i <;> simp [hi]
  · rw [maj, BitVec.getLsbD_xor, BitVec.getLsbD_xor, BitVec.getLsbD_and, BitVec.getLsbD_and, BitVec.getLsbD_and]
    exact xor_of_ands_eq_majority _ _ _

end Sys2Proof.Machine
end

section
/-! The two commands at the edge at which the host offers them (R111, R112, R118), and what an `INIT` leaves behind
(R119). -/

namespace Sys2Proof.Machine

/-- Settles O14. -/
theorem commandsDoNothingWhileBusy : Obligations.CommandsDoNothingWhileBusy :=
  fun s b hbusy => ⟨execInit_busy s hbusy, execCompress_busy s b hbusy⟩

/-- R31: an idle core accepts the command that the offered word decodes to. -/
theorem acceptedNext_of_idle {s : State} (hi : s.Idle) {p : CmdWord → Prop} {i : Instr}
    (hp : ∀ w, p w → decodeCmd w = i) : AcceptedNext s p i := by
  intro turn ht hr hv hw
  rw [step_of_turn ht, edge_command (s.afterTurn turn) _ hr hi hv, hp turn.pins.cmd hw]
  rfl

/-- R111: an idle core has the sequencer word of reset already. -/
theorem State.resetEdge_of_idle {s : State} (hi : s.Idle) : s.resetEdge = s.setH IV :=
  State.ext rfl rfl rfl hi.1.symm hi.2.symm rfl rfl

/-- Settles O12. -/
theorem initLoadsInitialValues : Obligations.InitLoadsInitialValues := by
  refine ⟨fun b => (everyCommandWordIsACommand b).1, fun s hp ht => ?_, fun s hp ht => ?_⟩
  · refine acceptedNext_of_idle ⟨hp, ht⟩ ?_
    rintro _ ⟨b, rfl⟩
    exact decodeCmd_cmdWord 0 b
  · rw [exec, execInit_ready s hp, State.resetEdge_of_idle ⟨hp, ht⟩]
    rfl

/-- R31: an idle core accepts the command word that the host offers, and the host drops it. -/
theorem hostTurn_offer_of_idle {s : State} {w : CmdWord} {r : List HostMove} (hi : s.Idle)
    (hhost : s.host = .offer w :: r) :
    hostTurn s.cmdReady s.digest s.host = .next ⟨Pins.offering w, r, []⟩ := by
  rw [hhost, (State.cmdReady_iff s).2 hi.1]
  rfl

/-- R111: the acceptance edge of an `INIT` on offer. -/
theorem step_accepts_init {s : State} {w : CmdWord} {r : List HostMove} (hi : s.Idle) (hhost : s.host = .offer w :: r)
    (ho : cmdOpOf w = 0) : step s = .next (s.setHost r).resetEdge := by
  have hdecode : decodeCmd (Pins.offering w).cmd = .init := (decodeCmd_cmdWord _ _).trans (if_pos ho)
  rw [step_of_turn (hostTurn_offer_of_idle hi hhost), afterTurn_no_samples, edge_command (s.setHost r) _ rfl hi rfl,
    hdecode, exec, execInit_ready (s.setHost r) hi.1]

/-- Settles O46: after the `INIT` the two states differ in `W` and `a` to `h` at most, which never show (O47). -/
theorem initForgetsEverythingBefore : Obligations.InitForgetsEverythingBefore := by
  intro s u b r hs hu hhost hsame hsamples k hk
  have ho : cmdOpOf ((0 : BitVec 1) ++ b) = 0 := cmdOpOf_cmdWord 0 b
  obtain ⟨j, rfl⟩ := Nat.exists_eq_add_of_le' hk
  rw [run_succ_of_step (step_accepts_init hs hhost ho), run_succ_of_step (step_accepts_init hu (hsame.trans hhost) ho)]
  exact idleLeftoversNeverShow (s.setHost r).resetEdge (u.setHost r).resetEdge rfl ⟨rfl, rfl, rfl, rfl, hsamples⟩ j

end Sys2Proof.Machine
end

section
/-! The sequencer (R116): its table, and that a command on offer does not disturb it while it is busy (R118). -/

namespace Sys2Proof.Machine

/-- R72: with `rst` = 0 a micro-operation is performed exactly as the sequencer word says. -/
theorem performedNext_of_decodeSeq {s : State} {i : Instr} (hd : decodeSeq s.seq = .ok i) : PerformedNext s i :=
  fun turn ht hr => (stepPerformsTheDecodedInstruction s turn ht hr _ rfl).1 i hd

/-- R131, R142: the sequencer word after a looping micro-operation. -/
theorem State.advance_word (s : State) (t : BitVec 6) (p : BitVec 3) :
    ((s.advance t p).phase, (s.advance t p).t) = if t = 63 then (p, 0) else (s.phase, t + 1) := by
  unfold State.advance
  split <;> rfl

/-- Settles O27, along the rows of R116. -/
theorem sequencerFollowsItsTable : Obligations.SequencerFollowsItsTable := by
  intro s turn ht hreach s1 hs1
  have hafter : s1 = s.afterTurn turn := hs1
  have hphase : s1.phase = s.phase := by rw [hafter, State.afterTurn_phase]
  have hstep : step s = edge turn.pins s1 := hafter ▸ step_of_turn ht
  cases hr : turn.pins.rst with
  | true =>
    rw [edge_reset s1 _ hr] at hstep
    exact ⟨hstep, _, hstep, rfl⟩
  | false =>
    have huop {i : Instr} (hd : decodeSeq s.seq = .ok i) : step s = exec i s1 :=
      hafter ▸ performedNext_of_decodeSeq hd turn ht hr
    rcases hreach.resolve_left (by simp [hr]) with hi | ⟨hp, h16⟩ | ⟨hp, h0⟩ | hp | ⟨hp, h0⟩
    · have hi1 : s1.Idle := hafter ▸ hi
      cases hv : turn.pins.cmdValid with
      | false =>
        rw [edge_idle s1 _ hr hi1 hv] at hstep
        exact ⟨by simpa [hi.1] using hstep, _, hstep, by simp [hi.1, hi1]⟩
      | true =>
        rw [edge_command s1 _ hr hi1 hv, Pins.cmd, decodeCmd_cmdWord] at hstep
        rcases bit_zero_or_one turn.pins.cmdOp with ho | ho
        · rw [if_pos ho] at hstep
          exact ⟨by simpa [hi.1, ho] using hstep, _, hstep.trans (execInit_ready s1 hi1.1), by simp [hi.1, ho]⟩
        · rw [if_neg (by simp [ho])] at hstep
          exact ⟨by simpa [hi.1, ho] using hstep, _, hstep.trans (execCompress_ready s1 _ hi1.1), by simp [hi.1, ho]⟩
    · have hexec := huop (i := .uexp s.t) (by rw [State.seq, hp, decodeSeq_expand _ h16])
      refine ⟨by simpa [hp] using hexec, _, hexec.trans (execUexp_of_le s1 _ h16), ?_⟩
      exact (State.advance_word _ _ _).trans (by simp [hp, hphase])
    · have hexec := huop (i := .uwinit) (by rw [State.seq, hp, h0, decodeSeq_winit])
      exact ⟨by simpa [hp] using hexec, _, hexec, by simp [hp]⟩
    · have hexec := huop (i := .urnd s.t) (by rw [State.seq, hp, decodeSeq_round])
      refine ⟨by simpa [hp] using hexec, _, hexec, ?_⟩
      exact (State.advance_word _ _ _).trans (by simp [hp, hphase])
    · have hexec := huop (i := .uacc) (by rw [State.seq, hp, h0, decodeSeq_acc])
      exact ⟨by simpa [hp] using hexec, _, hexec, by simp [hp]⟩

theorem State.advance_setHost (s : State) (ms : List HostMove) (t : BitVec 6) (p : BitVec 3) :
    (s.setHost ms).advance t p = (s.advance t p).setHost ms := by
  unfold State.advance
  split <;> rfl

/-- No instruction reads the host's moves. -/
theorem exec_setHost {i : Instr} {s u : State} (h : exec i s = .next u) (ms : List HostMove) :
    exec i (s.setHost ms) = .next (u.setHost ms) := by
  cases i with
  | init =>
    by_cases hp : s.phase = Phase.idle
    · cases h.symm.trans (execInit_ready s hp)
      exact execInit_ready (s.setHost ms) hp
    · cases h.symm.trans (execInit_busy s hp)
      exact execInit_busy (s.setHost ms) hp
  | compress b =>
    by_cases hp : s.phase = Phase.idle
    · cases h.symm.trans (execCompress_ready s b hp)
      exact execCompress_ready (s.setHost ms) b hp
    · cases h.symm.trans (execCompress_busy s b hp)
      exact execCompress_busy (s.setHost ms) b hp
  | uexp t =>
    have h16 : 16 ≤ t.toNat := by
      refine Nat.le_of_not_lt fun hlt => ?_
      cases h.symm.trans (uexpBelow16IsRefused s t hlt)
    cases h.symm.trans (execUexp_of_le s t h16)
    exact (execUexp_of_le (s.setHost ms) t h16).trans (congrArg _ (State.advance_setHost (s.writeW _ _) ms t _))
  | uwinit => cases h; rfl
  | urnd t =>
    cases h
    exact congrArg Host.Outcome.next (State.advance_setHost (s.setV _) ms t _)
  | uacc => cases h; rfl

/-- R28, R72: a busy core in a reachable state has a micro-operation to perform, whatever the host's moves are. -/
theorem exec_selected {s : State} (hreach : SeqReachable s.phase s.t) (hbusy : s.phase ≠ Phase.idle) :
    ∃ i u, decodeSeq s.seq = .ok i ∧ exec i s = .next u := by
  obtain ⟨i, hd⟩ := (decodeSeq_eq_ok_iff s.phase s.t).2 ⟨hreach, fun hi => hbusy hi.1⟩
  obtain ⟨u, hu⟩ := exec_next s i (decodeSeq_canonical hd).1
  exact ⟨i, u, hd, hu⟩

/-- R118: in a busy core a command on offer stays on offer. -/
theorem hostTurn_offer_of_busy {s : State} {w : CmdWord} {r : List HostMove} (hbusy : s.phase ≠ Phase.idle)
    (hhost : s.host = .offer w :: r) :
    hostTurn s.cmdReady s.digest s.host = .next ⟨Pins.offering w, s.host, []⟩ := by
  rw [hhost, (State.cmdReady_false_iff s).2 hbusy]
  rfl

/-- Settles O29: the micro-operation selected is the same with and without the offer, and does not read the host's
moves. -/
theorem offerWaitsWhileBusy : Obligations.OfferWaitsWhileBusy := by
  intro s w r hreach hbusy hhost
  obtain ⟨i, u, hd, hu⟩ := exec_selected hreach hbusy
  have hstep : step s = .next u := by
    rw [step_of_turn (hostTurn_offer_of_busy hbusy hhost), afterTurn_no_samples]
    exact (edge_uop s _ rfl hd).trans hu
  refine ⟨u, hstep, (exec_host hu).1.trans hhost, ?_⟩
  have hquiet : step (s.setHost []) = edge Pins.quiet (s.setHost []) :=
    (step_of_turn (turn := ⟨Pins.quiet, [], []⟩) rfl).trans (congrArg _ (afterTurn_no_samples _ _ _))
  exact (hquiet.trans (edge_uop (s.setHost []) _ rfl hd)).trans (exec_setHost hu [])

end Sys2Proof.Machine
end

section
/-! Runs of a busy core with `rst` = 0 back to (`IDLE`, 0) (R114, R120, R172). -/

namespace Sys2Proof.Machine

/-- A property of the host's moves under which the host of a busy core has a turn, keeps `rst` = 0, and still has the
property afterwards. -/
def KeptWhileBusy (Q : List HostMove → Prop) : Prop :=
  ∀ ms dig, Q ms → ∃ turn, hostTurn false dig ms = .next turn ∧ turn.pins.rst = false ∧ Q turn.rest

/-- R114: a host as in `State.HostCalm`. -/
theorem keptWhileBusy_calm : KeptWhileBusy fun ms => ∀ m ∈ ms, m.keepsRstLow = true ∧ m.withinLimit = true := by
  intro ms dig hcalm
  cases ht : hostTurn false dig ms with
  | fault f => exact absurd ht (hostTurn_not_fault _ _ _ f)
  | refused e =>
    obtain ⟨-, msg, d, hmem, hlong⟩ := hostTurn_refused _ _ ht
    exact absurd (of_decide_eq_true (hcalm _ hmem).2) hlong
  | next turn =>
    refine ⟨turn, rfl, hostTurn_rst_low _ _ ht fun m hm => (hcalm m hm).1, ?_⟩
    exact hostTurn_rest _ _ ⟨rfl, rfl⟩ (fun _ => ⟨rfl, rfl⟩) (fun _ => ⟨rfl, rfl⟩) ht hcalm

/-- R118: a host with nothing but commands to offer keeps them all. -/
theorem keptWhileBusy_offers (ws : List CmdWord) : KeptWhileBusy (· = ws.map .offer) := by
  rintro _ dig rfl
  cases ws with
  | nil => exact ⟨_, rfl, rfl, rfl⟩
  | cons w ws => exact ⟨_, rfl, rfl, rfl⟩

/-- R120: the micro-operations left before the core is idle again, in a reachable sequencer word. -/
def uopsLeft (phase : BitVec 3) (t : BitVec 6) : Nat :=
  if phase = Phase.idle then 0
  else if phase = Phase.expand then 130 - t.toNat
  else if phase = Phase.winit then 66
  else if phase = Phase.round then 65 - t.toNat
  else 1

theorem uopsLeft_idle (t : BitVec 6) : uopsLeft Phase.idle t = 0 := rfl
theorem uopsLeft_expand (t : BitVec 6) : uopsLeft Phase.expand t = 130 - t.toNat := rfl
theorem uopsLeft_winit (t : BitVec 6) : uopsLeft Phase.winit t = 66 := rfl
theorem uopsLeft_round (t : BitVec 6) : uopsLeft Phase.round t = 65 - t.toNat := rfl
theorem uopsLeft_acc (t : BitVec 6) : uopsLeft Phase.acc t = 1 := rfl

theorem uopsLeft_le {phase : BitVec 3} {t : BitVec 6} (h : SeqReachable phase t) : uopsLeft phase t ≤ 114 := by
  rcases h with ⟨rfl, -⟩ | ⟨rfl, h16⟩ | ⟨rfl, -⟩ | rfl | ⟨rfl, -⟩
  · exact Nat.zero_le _
  · rw [uopsLeft_expand]; omega
  · rw [uopsLeft_winit]; omega
  · rw [uopsLeft_round]; omega
  · rw [uopsLeft_acc]; omega

/-- R116: a step of a busy core with `rst` = 0 makes one of the micro-operations that are left. -/
theorem step_of_busy {s : State} {turn : Turn} (hreach : SeqReachable s.phase s.t) (hbusy : s.phase ≠ Phase.idle)
    (ht : hostTurn s.cmdReady s.digest s.host = .next turn) (hr : turn.pins.rst = false) :
    ∃ u, step s = .next u ∧ u.host = turn.rest ∧ uopsLeft s.phase s.t = uopsLeft u.phase u.t + 1 := by
  obtain ⟨-, u, hu, hword⟩ := sequencerFollowsItsTable s turn ht (.inr hreach) _ rfl
  refine ⟨u, hu, (step_host_of_turn ht hu).1, ?_⟩
  rcases hreach with hi | ⟨hp, h16⟩ | ⟨hp, -⟩ | hp | ⟨hp, -⟩
  · exact absurd hi.1 hbusy
  · by_cases h63 : s.t = 63#6
    · obtain ⟨hup, -⟩ : u.phase = Phase.winit ∧ u.t = 0 := by simpa [hr, hp, h63] using hword
      rw [hp, h63, hup]
      rfl
    · obtain ⟨hup, hut⟩ : u.phase = Phase.expand ∧ u.t = s.t + 1 := by simpa [hr, hp, h63] using hword
      rw [hp, hup, hut, uopsLeft_expand, uopsLeft_expand, counter_succ_toNat h63]
      omega
  · obtain ⟨hup, hut⟩ : u.phase = Phase.round ∧ u.t = 0 := by simpa [hr, hp] using hword
    rw [hp, hup, hut]
    rfl
  · by_cases h63 : s.t = 63#6
    · obtain ⟨hup, -⟩ : u.phase = Phase.acc ∧ u.t = 0 := by simpa [hr, hp, h63] using hword
      rw [hp, h63, hup]
      rfl
    · obtain ⟨hup, hut⟩ : u.phase = Phase.round ∧ u.t = s.t + 1 := by simpa [hr, hp, h63] using hword
      rw [hp, hup, hut, uopsLeft_round, uopsLeft_round, counter_succ_toNat h63]
      omega
  · obtain ⟨hup, -⟩ : u.phase = Phase.idle ∧ u.t = 0 := by simpa [hr, hp] using hword
    rw [hp, hup]
    rfl

/-- R28: of the reachable words with phase `IDLE` there is only the idle one. -/
theorem idle_of_seqReachable {s : State} (hreach : SeqReachable s.phase s.t) (hp : s.phase = Phase.idle) : s.Idle := by
  rw [hp] at hreach
  refine ⟨hp, ?_⟩
  rcases hreach with ⟨-, h0⟩ | ⟨h, -⟩ | ⟨h, -⟩ | h | ⟨h, -⟩
  · exact h0
  all_goals exact absurd h (by decide)

section kept
variable {Q : List HostMove → Prop} {s : State}

theorem KeptWhileBusy.turn (hQ : KeptWhileBusy Q) (hbusy : s.phase ≠ Phase.idle) (hs : Q s.host) :
    ∃ turn, hostTurn s.cmdReady s.digest s.host = .next turn ∧ turn.pins.rst = false ∧ Q turn.rest := by
  rw [(State.cmdReady_false_iff s).2 hbusy]
  exact hQ s.host s.digest hs

/-- R120, R172: while the host keeps `rst` = 0, a busy core makes the micro-operations that are left and is then idle. -/
theorem run_to_idle (hQ : KeptWhileBusy Q) (hreach : SeqReachable s.phase s.t) (hs : Q s.host) :
    ∃ u, run (uopsLeft s.phase s.t) s = .next u ∧ u.Idle ∧ Q u.host := by
  induction hn : uopsLeft s.phase s.t generalizing s with
  | zero =>
    have hidle : s.phase = Phase.idle := by
      by_contra hbusy
      obtain ⟨turn, ht, hr, -⟩ := hQ.turn hbusy hs
      obtain ⟨u, -, -, hleft⟩ := step_of_busy hreach hbusy ht hr
      omega
    exact ⟨s, rfl, idle_of_seqReachable hreach hidle, hs⟩
  | succ n ih =>
    have hbusy : s.phase ≠ Phase.idle := by
      intro hp
      rw [hp, uopsLeft_idle] at hn
      omega
    obtain ⟨turn, ht, hr, hrest⟩ := hQ.turn hbusy hs
    obtain ⟨w, hw, hwhost, hleft⟩ := step_of_busy hreach hbusy ht hr
    obtain ⟨u, hu, hidle, huhost⟩ := ih (step_seqReachable hw) (hwhost ▸ hrest) (by omega)
    exact ⟨u, (run_succ_of_step hw n).trans hu, hidle, huhost⟩

end kept

/-- Settles O31. -/
theorem coreReturnsToIdle : Obligations.CoreReturnsToIdle := by
  intro s hreach hcalm
  obtain ⟨u, hu, hi, -⟩ := run_to_idle keptWhileBusy_calm hreach hcalm
  exact ⟨_, u, uopsLeft_le hreach, hu, hi⟩

/-- R111, R112: an idle core accepts whatever command is on offer. -/
theorem step_takes_offer {s : State} {w : CmdWord} {r : List HostMove} (hi : s.Idle) (hhost : s.host = .offer w :: r) :
    ∃ u, step s = .next u ∧ u.host = r := by
  have ht := hostTurn_offer_of_idle hi hhost
  obtain ⟨-, u, hu, -⟩ := sequencerFollowsItsTable s _ ht (.inr (.inl hi)) _ rfl
  exact ⟨u, hu, (step_host_of_turn ht hu).1⟩

/-- Settles O30: at the edge after the micro-operations that are left. -/
theorem offerIsAccepted : Obligations.OfferIsAccepted := by
  intro s w hreach hhost
  obtain ⟨a, ha, hi, hahost⟩ := run_to_idle (keptWhileBusy_offers [w]) hreach hhost
  obtain ⟨u, hu, huhost⟩ := step_takes_offer hi hahost
  refine ⟨uopsLeft s.phase s.t + 1, u, Nat.add_le_add_right (uopsLeft_le hreach) 1, ?_, huhost⟩
  exact (run_add ha 1).trans (run_succ_of_step hu 0)

end Sys2Proof.Machine
end

section
/-! Runs of a whole `COMPRESS`, and of one after another (R112, R114, R119, R120). -/

namespace Sys2Proof.Machine

section compressing
variable {Q : List HostMove → Prop} {s : State} {hin : Words8} {m : BlockWords} {k : Nat}

/-- R114: while the host keeps `rst` = 0, each edge makes the next micro-operation of a `COMPRESS` in progress. -/
theorem CompressAt.run_busy (hQ : KeptWhileBusy Q) (h : CompressAt hin m k s) (hs : Q s.host) {j : Nat}
    (hj : k + j ≤ 114) : ∃ u, run j s = .next u ∧ CompressAt hin m (k + j) u ∧ Q u.host := by
  induction j generalizing k s with
  | zero => exact ⟨s, rfl, h, hs⟩
  | succ j ih =>
    have hk : k < 114 := by omega
    obtain ⟨turn, ht, hr, hrest⟩ := hQ.turn (h.busy hk).1 hs
    obtain ⟨w, hw, hat, hwhost, -⟩ := h.step ht hr (.inl hk)
    obtain ⟨u, hu, huat, huhost⟩ := ih hat (hwhost ▸ hrest) (by omega)
    exact ⟨u, (run_succ_of_step hw j).trans hu, (show k + (j + 1) = k + 1 + j by omega) ▸ huat, huhost⟩

/-- R112, R114: a `COMPRESS` on offer to an idle core is accepted at the first edge, and `k` micro-operations are made at
the next `k`. -/
theorem run_compress (hQ : KeptWhileBusy Q) (hi : s.Idle) {b : Block} {r : List HostMove}
    (hhost : s.host = .offer ((1 : BitVec 1) ++ b) :: r) (hr : Q r) (hk : k ≤ 114) :
    ∃ u, run (k + 1) s = .next u ∧ CompressAt s.H (blockWords b) k u ∧ Q u.host := by
  obtain ⟨a, ha, haat, hahost, -⟩ :=
    step_accepts_compress hi (hostTurn_offer_of_idle hi hhost) rfl rfl (cmdOpOf_cmdWord 1 b)
  obtain ⟨u, hu, huat, huhost⟩ := haat.run_busy hQ (hahost ▸ hr) (j := k) (by omega)
  rw [Nat.zero_add, show (Pins.offering ((1 : BitVec 1) ++ b)).cmdBlock = b from cmdBlockOf_cmdWord 1 b] at huat
  exact ⟨u, (run_succ_of_step ha k).trans hu, huat, huhost⟩

/-- R112: the micro-operation that comes after the first `k` of a `COMPRESS`. -/
def uopAfter (k : Nat) : Instr :=
  if k < 48 then .uexp (BitVec.ofNat 6 (16 + k)) else if k = 48 then .uwinit
  else if k < 113 then .urnd (BitVec.ofNat 6 (k - 49)) else .uacc

/-- R72, R112: it is the one that the sequencer word selects. -/
theorem CompressAt.decodeSeq_seq (h : CompressAt hin m k s) (hk : k < 114) : decodeSeq s.seq = .ok (uopAfter k) := by
  cases h with
  | expand hk hp _ _ =>
    have ht : BitVec.ofNat 6 (16 + k) = s.t := by rw [Nat.add_comm, hk, BitVec.ofNat_toNat, BitVec.setWidth_eq]
    rw [State.seq, hp, decodeSeq_expand _ (by omega), uopAfter, if_pos (by omega), ht]
  | winit hk hp h0 _ _ =>
    rw [State.seq, hp, h0, decodeSeq_winit, hk]
    rfl
  | round hk hp _ _ _ =>
    have ht : BitVec.ofNat 6 (k - 49) = s.t := by
      rw [hk, Nat.add_sub_cancel, BitVec.ofNat_toNat, BitVec.setWidth_eq]
    rw [State.seq, hp, decodeSeq_round, uopAfter, if_neg (by omega), if_neg (by omega), if_pos (by omega), ht]
  | acc hk hp h0 _ _ =>
    rw [State.seq, hp, h0, decodeSeq_acc, hk]
    rfl
  | done hk' _ _ => omega

end compressing

/-- The premise of `run_compress` on the rest of the moves, for a calm host. -/
theorem State.HostCalm.rest {s : State} {m : HostMove} {r : List HostMove} (h : s.HostCalm) (hhost : s.host = m :: r) :
    ∀ x ∈ r, x.keepsRstLow = true ∧ x.withinLimit = true :=
  fun x hx => h x (hhost ▸ List.mem_cons_of_mem m hx)

/-- R112: the acceptance step writes the sixteen words of the block into `W`, and the sequencer word. -/
theorem exec_compress_of_idle {s : State} (hp : s.phase = Phase.idle) (b : Block) :
    ∃ w : Vector Word 64, exec (.compress b) s = .next { s with W := w, phase := 1, t := 16 } ∧
      ∀ j, (h : j < 64) → w[j] = if j < 16 then b.extractLsb' (480 - 32 * j) 32 else s.W[j] := by
  refine ⟨loadBlock s.W (blockWords b), ?_, fun j hj => ?_⟩
  · rw [exec, execCompress_ready s b hp, State.setSeq_eq, State.setW_eq]
  · rw [loadBlock_getElem]
    split
    · exact blockWords_getElem b j _
    · rfl

/-- Settles O13. -/
theorem compressLoadsTheBlock : Obligations.CompressLoadsTheBlock := by
  refine fun b => ⟨(everyCommandWordIsACommand b).2, fun s hp h0 => ?_, fun s hp h0 => ⟨exec_compress_of_idle hp b, ?_⟩⟩
  · refine acceptedNext_of_idle ⟨hp, h0⟩ ?_
    rintro _ rfl
    exact decodeCmd_cmdWord 1 b
  · intro r hhost hcalm
    have hrun {k : Nat} := run_compress (k := k) keptWhileBusy_calm ⟨hp, h0⟩ hhost (hcalm.rest hhost)
    refine ⟨fun k hk => ?_, ?_⟩
    · obtain ⟨u, hu, hat, -⟩ := hrun hk.le
      exact ⟨u, hu, (State.cmdReady_false_iff u).2 (hat.busy hk).1, performedNext_of_decodeSeq (hat.decodeSeq_seq hk)⟩
    · obtain ⟨u, hu, hat, -⟩ := hrun (Nat.le_refl 114)
      exact ⟨u, hu, (State.cmdReady_iff u).2 (hat.idle (Nat.le_refl 114)).1.1⟩

/-- Settles O43. -/
theorem compressNetEffect : Obligations.CompressNetEffect := by
  intro s b r hi hhost hcalm
  have hrun {k : Nat} := run_compress (k := k) keptWhileBusy_calm hi hhost (hcalm.rest hhost)
  refine ⟨?_, fun k h1 h114 => ?_⟩
  · obtain ⟨u, hu, hat, -⟩ := hrun (Nat.le_refl 114)
    obtain ⟨hidle, hH⟩ := hat.idle (Nat.le_refl 114)
    exact ⟨u, hu, hidle.1, hidle.2, hH⟩
  · obtain ⟨j, rfl⟩ := Nat.exists_eq_add_of_le' h1
    obtain ⟨u, hu, hat, -⟩ := hrun (k := j) (by omega)
    exact ⟨u, hu, hat.busy h114⟩

/-- R119, R120: one `COMPRESS` after another, 115 edges each. -/
theorem run_compress_blocks {s : State} {bs : List BlockWords} (hi : s.Idle)
    (hhost : s.host = bs.map fun m => .offer ((1 : BitVec 1) ++ packBlock m)) :
    ∃ u, run (115 * bs.length) s = .next u ∧ u.Idle ∧ u.host = [] ∧ u.H = bs.foldl compress s.H := by
  induction bs generalizing s with
  | nil => exact ⟨s, rfl, hi, hhost, rfl⟩
  | cons m bs ih =>
    have hkept := keptWhileBusy_offers (bs.map fun m => (1 : BitVec 1) ++ packBlock m)
    obtain ⟨a, ha, hat, hahost⟩ := run_compress hkept hi hhost (List.map_map ..).symm (Nat.le_refl 114)
    obtain ⟨haidle, hH⟩ := hat.idle (Nat.le_refl 114)
    obtain ⟨u, hu, huidle, huhost, huH⟩ := ih haidle (hahost.trans (List.map_map ..))
    rw [blockWords_packBlock] at hH
    refine ⟨u, ?_, huidle, huhost, by rw [huH, hH, List.foldl_cons]⟩
    rw [List.length_cons, Nat.mul_succ, Nat.add_comm]
    exact (run_add ha _).trans hu

/-- Settles O45. -/
theorem commandsChainBlocks : Obligations.CommandsChainBlocks := by
  intro s bs hi hhost
  have hstep := step_accepts_init hi hhost (by simp [cmdOpOf])
  obtain ⟨u, hu, hidle, huhost, hH⟩ := run_compress_blocks (s := (s.setHost _).resetEdge) ⟨rfl, rfl⟩ rfl
  exact ⟨u, (run_add (run_succ_of_step hstep 0) _).trans hu, hidle.1, hidle.2, huhost, hH⟩

end Sys2Proof.Machine
end

section
/-! The data invariant of a `COMPRESS` in progress (R132, R143): what it asks in each phase, and that every step keeps it. -/

namespace Sys2Proof.Machine

variable {s : State}

theorem State.dataInv_idle (hp : s.phase = Phase.idle) : s.DataInv := by
  simp [State.DataInv, hp]

theorem State.dataInv_expand_iff (hp : s.phase = Phase.expand) : s.DataInv ↔ ScheduleFilled s.W s.t.toNat := by
  simp [State.DataInv, hp]

theorem State.dataInv_winit_iff (hp : s.phase = Phase.winit) : s.DataInv ↔ ScheduleFilled s.W 64 := by
  simp [State.DataInv, hp]

theorem State.dataInv_round_iff (hp : s.phase = Phase.round) :
    s.DataInv ↔ ScheduleFilled s.W 64 ∧ s.v = rounds s.W s.H s.t.toNat := by
  simp [State.DataInv, hp]

theorem State.dataInv_acc_iff (hp : s.phase = Phase.acc) :
    s.DataInv ↔ ScheduleFilled s.W 64 ∧ s.v = rounds s.W s.H 64 := by
  simp [State.DataInv, hp]

/-- R112: below entry 16 the recurrence asks nothing. -/
theorem scheduleFilled_16 (W : Schedule) : ScheduleFilled W 16 :=
  expandSteps_filled W (Nat.zero_le 48)

/-- R131: `UEXP` fills one more entry; at 63 the schedule is then full. -/
theorem dataInv_after_uexp (hp : s.phase = Phase.expand) (h16 : 16 ≤ s.t.toNat) (hW : ScheduleFilled s.W s.t.toNat) :
    ((s.writeW (counterIndex s.t) (expandWord s.W (counterIndex s.t))).advance s.t Phase.winit).DataInv := by
  have hfill := hW.set h16 s.t.isLt
  by_cases h63 : s.t = 63
  · have hlast : s.t.toNat + 1 = 64 := by rw [h63]; rfl
    rw [State.advance_last _ _ h63]
    exact (State.dataInv_winit_iff rfl).2 (hlast ▸ hfill)
  · rw [State.advance_of_ne _ _ h63]
    refine (State.dataInv_expand_iff ?_).2 ?_
    · exact hp
    · rw [State.setT_t, counter_succ_toNat h63]
      exact hfill

/-- R142, R143: `URND` makes one more round on the Hash State; at 63 it is the last. -/
theorem dataInv_after_urnd (hp : s.phase = Phase.round) (hW : ScheduleFilled s.W 64)
    (hv : s.v = rounds s.W s.H s.t.toNat) :
    ((s.setV (mixRound s.v (K (counterIndex s.t)) s.W[counterIndex s.t])).advance s.t Phase.acc).DataInv := by
  have hround : mixRound s.v (K (counterIndex s.t)) s.W[counterIndex s.t] = rounds s.W s.H (s.t.toNat + 1) := by
    rw [rounds_succ _ _ _ s.t.isLt, hv]
    rfl
  by_cases h63 : s.t = 63
  · have hlast : s.t.toNat + 1 = 64 := by rw [h63]; rfl
    rw [State.advance_last _ _ h63]
    exact (State.dataInv_acc_iff rfl).2 ⟨hW, hround.trans (by rw [hlast]; rfl)⟩
  · rw [State.advance_of_ne _ _ h63]
    refine (State.dataInv_round_iff ?_).2 ⟨hW, ?_⟩
    · exact hp
    · rw [State.setT_t, counter_succ_toNat h63]
      exact hround

/-- Settles O35, along the eight cases of a step: an accepted `COMPRESS` begins with nothing filled, each micro-operation
carries the invariant to its next phase or counter, and in phase `IDLE` nothing is asked. -/
theorem stepKeepsDataInvariant : Obligations.StepKeepsDataInvariant := by
  intro s u _ hdata h
  obtain ⟨turn, -, hc⟩ := step_cases h
  rcases hc with ⟨-, rfl⟩ | ⟨-, hi, -, rfl⟩ | ⟨-, -, -, -, rfl⟩ | ⟨-, -, -, -, rfl⟩ | ⟨-, hp, h16, rfl⟩ |
    ⟨-, hp, -, rfl⟩ | ⟨-, hp, rfl⟩ | ⟨-, -, -, rfl⟩
  · exact State.dataInv_idle rfl
  · exact State.dataInv_idle hi.1
  · exact State.dataInv_idle rfl
  · exact (State.dataInv_expand_iff rfl).2 (scheduleFilled_16 _)
  · exact dataInv_after_uexp (s := s.afterTurn turn) hp h16 ((State.dataInv_expand_iff hp).1 hdata)
  · exact (State.dataInv_round_iff rfl).2 ⟨(State.dataInv_winit_iff hp).1 hdata, rfl⟩
  · obtain ⟨hW, hv⟩ := (State.dataInv_round_iff hp).1 hdata
    exact dataInv_after_urnd (s := s.afterTurn turn) hp hW hv
  · exact State.dataInv_idle rfl

end Sys2Proof.Machine
end

section
/-! The micro-operation `UEXP` (R131), and the schedule that 48 of them make of an accepted block (R132). -/

namespace Sys2Proof.Machine

variable {s u : State}

/-- R131, R142: the end of a looping micro-operation as a record update. -/
theorem State.advance_eq (s : State) (t : BitVec 6) (p : BitVec 3) : s.advance t p =
    { s with phase := if t = 63 then p else s.phase, t := if t = 63 then 0 else t + 1 } := by
  unfold State.advance
  split <;> rfl

/-- Settles O15: the schedule after `UEXP` is the one before with entry `t` replaced. -/
theorem uexpWritesOneScheduleWord : Obligations.UexpWritesOneScheduleWord := by
  intro t h16
  have hd : decodeSeq (seqWord Phase.expand t) = .ok (.uexp t) := decodeSeq_expand t h16
  refine ⟨hd, fun s hp ht => ⟨performedNext_of_decodeSeq ?_, ?_⟩⟩
  · rw [State.seq, hp, ht]
    exact hd
  · refine ⟨s.W.set t.toNat (expandWord s.W (counterIndex t)), ?_, fun j hj hne => ?_, ?_⟩
    · rw [exec, execUexp_of_le s t h16, State.advance_eq, State.writeW_phase, hp]
      rfl
    · exact Vector.getElem_set_ne t.isLt hj (Ne.symm hne)
    · exact Vector.getElem_set_self t.isLt

/-- R22: a step that is not `UWINIT` or `URND` leaves `a` to `h` as they are. -/
theorem step_keeps_v (h : step s = .next u) (hwinit : s.phase ≠ Phase.winit) (hround : s.phase ≠ Phase.round) :
    u.v = s.v := by
  obtain ⟨turn, ht, -⟩ := step_takes_turn h
  rcases (writersOfEachRegister s u turn ht h).2.1 with hv | ⟨-, hp | hp⟩
  · exact hv
  · exact absurd hp hwinit
  · exact absurd hp hround

section compressing
variable {Q : List HostMove → Prop} {hin : Words8} {m : BlockWords} {k : Nat}

/-- R112: the first 48 micro-operations of a `COMPRESS` are the `UEXP`s. -/
theorem CompressAt.phase_expand (h : CompressAt hin m k s) (hk : k < 48) : s.phase = Phase.expand := by
  cases h with
  | expand _ hp _ _ => exact hp
  | winit hk' _ _ _ _ => omega
  | round hk' _ _ _ _ => omega
  | acc hk' _ _ _ _ => omega
  | done hk' _ _ => omega

/-- R132: after them the schedule is complete. -/
theorem CompressAt.expanded (h : CompressAt hin m 48 s) :
    s.W = Machine.expand m ∧ s.phase = Phase.winit ∧ s.t = 0 := by
  cases h with
  | expand hk _ _ _ => omega
  | winit _ hp ht _ hW => exact ⟨hW, hp, ht⟩
  | round hk _ _ _ _ => omega
  | acc hk _ _ _ _ => omega
  | done hk _ _ => omega

/-- R131: neither the acceptance nor a `UEXP` touches `a` to `h`. -/
theorem run_compress_keeps_v (hQ : KeptWhileBusy Q) (hi : s.Idle) {b : Block} {r : List HostMove}
    (hhost : s.host = .offer ((1 : BitVec 1) ++ b) :: r) (hr : Q r) (hk : k ≤ 48) (h : run (k + 1) s = .next u) :
    u.v = s.v := by
  induction k generalizing u with
  | zero =>
    obtain ⟨a, ha, -⟩ := step_takes_offer hi hhost
    cases h.symm.trans (run_succ_of_step ha 0)
    exact step_keeps_v ha (by rw [hi.1]; decide) (by rw [hi.1]; decide)
  | succ k ih =>
    obtain ⟨a, ha, hat, -⟩ := run_compress hQ hi hhost hr (k := k) (by omega)
    have hphase := hat.phase_expand (by omega)
    obtain ⟨_, hstep, ⟨⟩⟩ := run_succ_eq_next.1 ((run_add ha 1).symm.trans h)
    exact (step_keeps_v hstep (by rw [hphase]; decide) (by rw [hphase]; decide)).trans (ih (by omega) ha)

end compressing

/-- Settles O42: the recurrence of `expand`, then the run up to the end of the `UEXP`s. -/
theorem scheduleIsExpandAfter48Steps : Obligations.ScheduleIsExpandAfter48Steps := by
  refine ⟨fun m => ⟨fun i hi => expand_getElem_of_lt_16 m hi, fun i hi h16 => expand_filled m i hi h16 hi⟩, ?_⟩
  intro s b r hi hhost hcalm
  have hrest := hcalm.rest hhost
  obtain ⟨u, hu, hat, -⟩ := run_compress (k := 48) keptWhileBusy_calm hi hhost hrest (by omega)
  obtain ⟨hW, hp, ht⟩ := hat.expanded
  have hv := run_compress_keeps_v keptWhileBusy_calm hi hhost hrest (Nat.le_refl 48) hu
  exact ⟨u, hu, hW, hp, ht, (hat.busy (by omega)).2, hv⟩

end Sys2Proof.Machine
end

section
/-! The round mixer: `UWINIT` (R141), `URND` (R142), the round as a function, its inverse, and its 64-fold application after
a `UWINIT` (R143). -/

namespace Sys2Proof.Machine

variable {s : State}

/-- Settles O17. -/
theorem uwinitCopiesHashState : Obligations.UwinitCopiesHashState := by
  refine ⟨decodeSeq_winit, fun s hp ht => ⟨performedNext_of_decodeSeq ?_, s.H, rfl, fun _ _ => rfl⟩⟩
  rw [State.seq, hp, ht]
  exact decodeSeq_winit

/-- R142: in phase `ROUND` the sequencer word selects `URND` at `t`. -/
theorem performedNext_urnd (hp : s.phase = Phase.round) : PerformedNext s (.urnd s.t) :=
  performedNext_of_decodeSeq (by rw [State.seq, hp, decodeSeq_round])

/-- R142: `URND` as a record update: one round on `a` to `h`, and the sequencer moved on. -/
theorem exec_urnd_eq (hp : s.phase = Phase.round) (t : BitVec 6) : exec (.urnd t) s = .next { s with
    v := mixRound s.v (K (counterIndex t)) s.W[counterIndex t]
    phase := if t = 63 then Phase.acc else Phase.round
    t := if t = 63 then 0 else t + 1 } := by
  rw [exec, execUrnd, State.advance_eq, State.setV_phase, hp]
  rfl

/-- R143: the round on eight named words, for the `T1` and `T2` of R142. -/
theorem mixRound_mk {a b c d e f g h k w T1 T2 : Word} (h1 : T1 = h + bsig1 e + ch e f g + k + w)
    (h2 : T2 = bsig0 a + maj a b c) :
    mixRound #v[a, b, c, d, e, f, g, h] k w = #v[T1 + T2, a, b, c, d + T1, e, f, g] := by
  rw [h1, h2]
  rfl

/-- Settles O18. -/
theorem urndMixesOneRound : Obligations.UrndMixesOneRound := by
  refine fun t => ⟨decodeSeq_round t, fun s hp ht => ⟨ht ▸ performedNext_urnd hp, ?_⟩⟩
  intro a b c d e f g h T1 T2 hv h1 h2
  rw [exec_urnd_eq hp, hv, mixRound_mk (k := K (counterIndex t)) (w := s.W[counterIndex t]) h1 h2]

/-- R143: the inverse of a round; the last entry is `T1` minus its other four terms. -/
def unmixRound (x : Words8) (k w : Word) : Words8 :=
  let T1 := x[0] - (bsig0 x[1] + maj x[1] x[2] x[3])
  #v[x[1], x[2], x[3], x[4] - T1, x[5], x[6], x[7], T1 - w - k - ch x[5] x[6] x[7] - bsig1 x[5]]

/-- R22: eight words are their eight entries. -/
theorem words8_eta (v : Words8) : #v[v[0], v[1], v[2], v[3], v[4], v[5], v[6], v[7]] = v := by
  ext j hj
  interval_cases j <;> rfl

theorem unmixRound_mixRound (v : Words8) (k w : Word) : unmixRound (mixRound v k w) k w = v := by
  rw [← words8_eta v]
  simp [unmixRound, mixRound, roundT1, roundT2]

theorem mixRound_unmixRound (x : Words8) (k w : Word) : mixRound (unmixRound x k w) k w = x := by
  rw [← words8_eta x]
  simp [unmixRound, mixRound, roundT1, roundT2]

/-- R143: for a fixed constant and schedule word a round loses nothing. -/
theorem mixRound_bijective (k w : Word) : Function.Bijective fun v : Words8 => mixRound v k w :=
  Function.bijective_iff_has_inverse.2
    ⟨fun x => unmixRound x k w, fun v => unmixRound_mixRound v k w, fun x => mixRound_unmixRound x k w⟩

/-- R143: round `t` with its entries of `K` and `W`. -/
def scheduledRound (W : Schedule) (v : Words8) (t : Fin 64) : Words8 := mixRound v (K t) W[t]

/-- R141: a step in (`WINIT`, 0). -/
theorem step_uwinit {turn : Turn} (hp : s.phase = Phase.winit) (h0 : s.t = 0)
    (ht : hostTurn s.cmdReady s.digest s.host = .next turn) (hr : turn.pins.rst = false) :
    step s = .next (((s.afterTurn turn).setV s.H).setSeq Phase.round 0) :=
  (uwinitCopiesHashState.2 s hp h0).1 turn ht hr

/-- R142: a step in phase `ROUND`. -/
theorem step_urnd {turn : Turn} (hp : s.phase = Phase.round)
    (ht : hostTurn s.cmdReady s.digest s.host = .next turn) (hr : turn.pins.rst = false) :
    step s = .next (((s.afterTurn turn).setV (scheduledRound s.W s.v (counterIndex s.t))).advance s.t Phase.acc) :=
  performedNext_urnd hp turn ht hr

/-- R140: the rounds from `t` on begin with round `t`. -/
theorem finRange_drop_counter (t : BitVec 6) :
    (List.finRange 64).drop t.toNat = counterIndex t :: (List.finRange 64).drop (t.toNat + 1) := by
  rw [List.drop_eq_getElem_cons (by simpa using t.isLt), List.getElem_finRange]
  rfl

/-- R143: while the host keeps `rst` = 0, the `URND` steps from the one at `t` on apply the rounds from `t` on, in order. -/
theorem run_rounds {Q : List HostMove → Prop} (hQ : KeptWhileBusy Q) {n : Nat} (hp : s.phase = Phase.round)
    (hn : s.t.toNat + n = 63) (hs : Q s.host) : ∃ u, run (n + 1) s = .next u ∧ u.phase = Phase.acc ∧ u.t = 0 ∧
      u.v = ((List.finRange 64).drop s.t.toNat).foldl (scheduledRound s.W) s.v := by
  induction n generalizing s with
  | zero =>
    obtain ⟨turn, ht, hr, -⟩ := hQ.turn (by rw [hp]; decide) hs
    have h63 : s.t = 63 := BitVec.eq_of_toNat_eq hn
    refine ⟨_, run_succ_of_step (step_urnd hp ht hr) 0, ?_⟩
    rw [State.advance_last _ _ h63, finRange_drop_counter, h63]
    exact ⟨rfl, rfl, rfl⟩
  | succ n ih =>
    obtain ⟨turn, ht, hr, hrest⟩ := hQ.turn (by rw [hp]; decide) hs
    have h63 : s.t ≠ 63 := fun h => by rw [h] at hn; simp at hn
    have hsucc := counter_succ_toNat h63
    have hstep := step_urnd hp ht hr
    rw [State.advance_of_ne _ _ h63] at hstep
    obtain ⟨u, hu, hphase, h0, hv⟩ :=
      ih (s := ((s.afterTurn turn).setV (scheduledRound s.W s.v (counterIndex s.t))).setT (s.t + 1)) hp
        (by rw [State.setT_t]; omega) hrest
    refine ⟨u, (run_succ_of_step hstep _).trans hu, hphase, h0, hv.trans ?_⟩
    rw [finRange_drop_counter s.t, List.foldl_cons, State.setT_t, hsucc]
    rfl

/-- R143: `UWINIT` and the 64 `URND` steps. -/
theorem run_uwinit_rounds {Q : List HostMove → Prop} (hQ : KeptWhileBusy Q) (hp : s.phase = Phase.winit) (h0 : s.t = 0)
    (hs : Q s.host) : ∃ u, run 65 s = .next u ∧ u.phase = Phase.acc ∧ u.t = 0 ∧
      u.v = (List.finRange 64).foldl (scheduledRound s.W) s.H := by
  obtain ⟨turn, ht, hr, hrest⟩ := hQ.turn (by rw [hp]; decide) hs
  obtain ⟨u, hu, hend⟩ :=
    run_rounds hQ (s := ((s.afterTurn turn).setV s.H).setSeq Phase.round 0) (n := 63) rfl rfl hrest
  exact ⟨u, (run_succ_of_step (step_uwinit hp h0 ht hr) 64).trans hu, hend⟩

/-- Settles O20. -/
theorem roundIsAFunctionAndABijection : Obligations.RoundIsAFunctionAndABijection := by
  refine ⟨fun _ _ _ _ _ _ _ _ _ _ _ _ h1 h2 => mixRound_mk h1 h2, fun s t hp _ => ⟨_, exec_urnd_eq hp t, rfl⟩, ?_,
    mixRound_bijective⟩
  exact fun s hp h0 hcalm => run_uwinit_rounds keptWhileBusy_calm hp h0 hcalm

end Sys2Proof.Machine
end

section
/-! The accumulator: `UACC` (R151), and that it completes the per-block transition of a `COMPRESS` (R113, R152). -/

namespace Sys2Proof.Machine

variable {s : State}

/-- Settles O19: the eight entries of `addWords` are sums of words, and a sum of words is one modulo 2^32. -/
theorem uaccAddsWorkingRegisters : Obligations.UaccAddsWorkingRegisters := by
  refine ⟨decodeSeq_acc, fun s hp ht => ⟨performedNext_of_decodeSeq ?_, addWords s.H s.v, rfl, fun j hj => ?_⟩⟩
  · rw [State.seq, hp, ht]
    exact decodeSeq_acc
  · rw [addWords_getElem, BitVec.toNat_add]

/-- R151: a step in (`ACC`, 0). -/
theorem step_uacc {turn : Turn} (hp : s.phase = Phase.acc) (h0 : s.t = 0)
    (ht : hostTurn s.cmdReady s.digest s.host = .next turn) (hr : turn.pins.rst = false) :
    step s = .next (((s.afterTurn turn).setH (addWords s.H s.v)).setSeq Phase.idle 0) :=
  (uaccAddsWorkingRegisters.2 s hp h0).1 turn ht hr

/-- R28: of the reachable words with phase `ACC` there is only the one with counter 0. -/
theorem counter_zero_of_acc (hreach : SeqReachable s.phase s.t) (hp : s.phase = Phase.acc) : s.t = 0 := by
  simpa [SeqReachable, hp] using hreach

/-- R132: the recurrence leaves no choice beyond the first sixteen entries, by induction on the index. -/
theorem ScheduleFilled.eq_of_first_16 {W V : Schedule} (hW : ScheduleFilled W 64) (hV : ScheduleFilled V 64)
    (h : ∀ i, (hi : i < 16) → W[i] = V[i]) : W = V := by
  refine Vector.ext fun i hi => ?_
  induction i using Nat.strongRecOn with
  | ind i ih =>
    rcases Nat.lt_or_ge i 16 with hlt | h16
    · exact h i hlt
    · rw [hW i hi h16 hi, hV i hi h16 hi]
      exact expandWord_congr W V ⟨i, hi⟩ (fun j hj hji => ih j hji hj) h16

/-- R112, R132: a full schedule is the one that `expand` makes of its own first sixteen entries. -/
theorem expand_loadedBlock (hW : ScheduleFilled s.W 64) : expand s.loadedBlock = s.W :=
  (expand_filled _).eq_of_first_16 hW fun i hi => by
    rw [expand_getElem_of_lt_16 _ hi, State.loadedBlock, Vector.getElem_ofFn]

/-- Settles O37: by the data invariant `UACC` adds to `H` the 64 rounds on a full schedule, which is that of the loaded
block. -/
theorem accumulatorCompletesCompress : Obligations.AccumulatorCompletesCompress := by
  intro s u ⟨hreach, _⟩ hdata hcalm hp h
  obtain ⟨turn, ht, hr, -⟩ := keptWhileBusy_calm.turn (by rw [hp]; decide) hcalm
  obtain ⟨hW, hv⟩ := (State.dataInv_acc_iff hp).1 hdata
  cases h.symm.trans (step_uacc hp (counter_zero_of_acc hreach hp) ht hr)
  calc addWords s.H s.v
    _ = addWords s.H (rounds s.W s.H 64) := congrArg (addWords s.H) hv
    _ = compress s.H s.loadedBlock := by rw [compress, expand_loadedBlock hW]

end Sys2Proof.Machine
end

section
/-! The Padder (R162 to R164, R170): its buffer in bytes and in bits, and the length field at its end. -/

namespace Sys2Proof.Machine

/-- Settles O51: the host's turn is refused at the edge at which the host comes to the message, so the step is. -/
theorem tooLongMessageIsRefused : Obligations.TooLongMessageIsRefused := by
  intro s m d r hlong hhost
  refine step_of_refused_turn ?_
  rw [hhost, hostTurn, blocksOf_tooLong (Nat.not_lt.2 hlong)]

/-- R162: everything the Padder can give. -/
theorem pad_eq_some_iff {m p : List Byte} : pad m = some p ↔ 8 * m.length < Config.messageBitLimit ∧ p = padBytes m := by
  unfold pad
  split <;> simp_all [eq_comm]

/-- R162, R163: `z` = 8 `p` + 7. -/
theorem zeroBits_eq (n : Nat) : zeroBits (8 * n % 512) = 8 * (zeroBits (8 * n % 512) / 8) + 7 := by
  unfold zeroBits
  split <;> omega

/-- R163: `p` from `q` = `L` mod 64. -/
theorem zeroBits_div_8 (n : Nat) : zeroBits (8 * n % 512) / 8 = if n % 64 ≤ 55 then 55 - n % 64 else 119 - n % 64 := by
  unfold zeroBits
  split <;> split <;> omega

/-- Settles O49: the counts of bytes follow from `padBytes_length_eq`. -/
theorem padInBytes : Obligations.PadInBytes := by
  intro m h
  have hlen := padBytes_length m
  have heq := padBytes_length_eq m
  refine ⟨padBytes m, zeroBits (8 * m.length % 512) / 8, pad_eq_some h, zeroBits_div_8 m.length, ?_, hlen, ?_⟩
  · have hfield : lengthField (8 * m.length) =
        (List.range 8).map fun i => BitVec.ofNat 8 (8 * m.length / 2 ^ (56 - 8 * i)) := by
      simp only [lengthField, Nat.mul_sub]
    rw [padBytes, hfield]
  · omega

/-- R162: the first `n` bytes of the length field, read as a big-endian number, are the high part of the length. -/
theorem foldl_lengthField_high {l : Nat} (hl : l < 2 ^ 64) {n : Nat} (hn : n ≤ 8) :
    ((List.range n).map fun i => BitVec.ofNat 8 (l / 2 ^ (8 * (7 - i)))).foldl (fun a b => 256 * a + b.toNat) 0 =
      l / 2 ^ (8 * (8 - n)) := by
  induction n with
  | zero => exact (Nat.div_eq_of_lt hl).symm
  | succ n ih =>
    have hpow : 2 ^ (8 * (8 - n)) = 2 ^ (8 * (7 - n)) * 256 := by
      rw [show 8 * (8 - n) = 8 * (7 - n) + 8 by omega, Nat.pow_add]
    rw [List.range_succ, List.map_append, List.foldl_append, ih (by omega), hpow, ← Nat.div_div_eq_div_mul,
      show 8 - (n + 1) = 7 - n by omega]
    exact Nat.div_add_mod (l / 2 ^ (8 * (7 - n))) 256

/-- R164: the last eight bytes of the padded message. -/
theorem padBytes_drop (m : List Byte) : (padBytes m).drop ((padBytes m).length - 8) = lengthField (8 * m.length) := by
  have hsplit : padBytes m = (m ++ 0x80 :: List.replicate (zeroBits (8 * m.length % 512) / 8) 0) ++
      lengthField (8 * m.length) := by
    rw [padBytes, List.append_assoc, List.cons_append]
  rw [hsplit]
  exact List.drop_left' (by rw [List.length_append (bs := lengthField _), lengthField_length, Nat.add_sub_cancel])

/-- Settles O50. -/
theorem padInvariants : Obligations.PadInvariants := by
  intro m h
  refine ⟨padBytes m, pad_eq_some h, ⟨_, rfl⟩, padBytes_length_eq m, ?_⟩
  rw [padBytes_drop, lengthField, foldl_lengthField_high h (Nat.le_refl 8)]
  exact Nat.div_one _

/-- A range in rows of `k`. -/
theorem flatMap_range_rows {α : Type} (f : Nat → α) (n k : Nat) :
    ((List.range n).flatMap fun i => (List.range k).map fun j => f (k * i + j)) = (List.range (k * n)).map f := by
  induction n with
  | zero => rfl
  | succ n ih =>
    rw [List.range_succ, List.flatMap_append, ih, List.flatMap_singleton, Nat.mul_succ, List.range_add, List.map_append,
      List.map_map]
    rfl

theorem messageBits_append (m p : List Byte) : messageBits (m ++ p) = messageBits m ++ messageBits p :=
  List.flatMap_append

theorem messageBits_cons (b : Byte) (m : List Byte) : messageBits (b :: m) = byteBits b ++ messageBits m :=
  List.flatMap_cons

/-- R163: bytes `00` are eight `0` bits each. -/
theorem messageBits_zeros (n : Nat) : messageBits (List.replicate n 0) = List.replicate (8 * n) false := by
  induction n with
  | zero => rfl
  | succ n ih =>
    rw [List.replicate_succ, messageBits_cons, ih, show 8 * (n + 1) = 8 + 8 * n by omega, List.replicate_add]
    rfl

/-- R162: bit `j` of byte `i` of the length field is bit `8i + j` of the 64-bit length, most significant first. -/
theorem lengthField_bit (l : Nat) {i j : Nat} (hi : i < 8) (hj : j < 8) :
    (BitVec.ofNat 8 (l / 2 ^ (8 * (7 - i)))).getMsbD j = l.testBit (63 - (8 * i + j)) := by
  have hpos : 7 - j + 8 * (7 - i) = 63 - (8 * i + j) := by omega
  rw [BitVec.getMsbD_eq_getLsbD, BitVec.getLsbD_ofNat, Nat.testBit_div_two_pow, hpos, decide_eq_true hj,
    decide_eq_true (show 8 - 1 - j < 8 by omega), Bool.true_and, Bool.true_and]

/-- R162: the length field is the length as a 64-bit big-endian number. -/
theorem messageBits_lengthField (l : Nat) :
    messageBits (lengthField l) = (List.range 64).map fun i => l.testBit (63 - i) := by
  rw [← flatMap_range_rows (fun i => l.testBit (63 - i)) 8 8, messageBits, lengthField, List.flatMap_map]
  refine List.flatMap_congr fun i hi => List.map_congr_left fun j hj => ?_
  exact lengthField_bit l (List.mem_range.1 hi) (List.mem_range.1 hj)

/-- Settles O48: the byte `80` is the `1` bit and the first seven `0` bits. -/
theorem padIsBitPadding : Obligations.PadIsBitPadding := by
  refine fun m h => ⟨padBytes m, pad_eq_some h, zeroBits (8 * m.length % 512), rfl, ?_⟩
  have h80 : byteBits 0x80 = true :: List.replicate 7 false := rfl
  calc messageBits (padBytes m)
    _ = messageBits m ++ (byteBits 0x80 ++ (messageBits (List.replicate (zeroBits (8 * m.length % 512) / 8) 0) ++
        messageBits (lengthField (8 * m.length)))) := by
      rw [padBytes, messageBits_append, messageBits_cons, messageBits_append]
    _ = messageBits m ++ true :: (List.replicate (7 + 8 * (zeroBits (8 * m.length % 512) / 8)) false ++
        (List.range 64).map fun i => (8 * m.length).testBit (63 - i)) := by
      rw [h80, messageBits_zeros, messageBits_lengthField, List.replicate_add, List.cons_append, List.append_assoc]
    _ = _ := by rw [Nat.add_comm 7, ← zeroBits_eq]

end Sys2Proof.Machine
end

section
/-! The Segmenter's words as numbers (R165) and the Serializer's bytes as those of the port `digest` (R53, R167). -/

namespace Sys2Proof.Machine

/-- R165: bytes put side by side are the digits of a number. -/
theorem toNat_append_eq_add {a b : Nat} (x : BitVec a) (y : BitVec b) :
    (x ++ y).toNat = x.toNat * 2 ^ b + y.toNat := by
  rw [BitVec.toNat_append, ← Nat.shiftLeft_add_eq_or_of_lt y.isLt, Nat.shiftLeft_eq]

/-- R165: a segmented word is the big-endian number of its four bytes. -/
theorem segmentWord_toNat (p : List Byte) (i j : Nat) : (segmentWord p i j).toNat =
    (p.getD (64 * i + 4 * j) 0).toNat * 2 ^ 24 + (p.getD (64 * i + 4 * j + 1) 0).toNat * 2 ^ 16 +
      (p.getD (64 * i + 4 * j + 2) 0).toNat * 2 ^ 8 + (p.getD (64 * i + 4 * j + 3) 0).toNat := by
  rw [segmentWord, toNat_append_eq_add, toNat_append_eq_add, toNat_append_eq_add]
  omega

/-- Settles O53. -/
theorem segmentedWordsAreBigEndian : Obligations.SegmentedWordsAreBigEndian := by
  refine fun p => ⟨segmentBlocks_eq_none_iff.2, fun hdvd => ?_, fun m hm => ?_⟩
  · have hsome := segmentBlocks_of_dvd hdvd
    obtain ⟨hlen, hword⟩ := segmentBlocks_eq_some hsome
    refine ⟨_, hsome, by omega, fun i j hi hj w x y z hw hx hy hz => ?_⟩
    rw [hword i j hi hj, segmentWord_toNat]
    simp only [List.getD_eq_getElem?_getD, hw, hx, hy, hz, Option.getD_some]
  · obtain ⟨-, rfl⟩ := pad_eq_some_iff.1 hm
    rw [padBytes_length_eq, Nat.mul_mod_right]

/-- R33: word `j` of the port `digest`. -/
theorem digestOf_word (h : Words8) {j : Nat} (hj : j < 8) : (digestOf h).extractLsb' (224 - 32 * j) 32 = h[j] := by
  unfold digestOf
  interval_cases j <;>
    simp (disch := decide) only [BitVec.extractLsb'_append_eq_of_le, BitVec.extractLsb'_append_eq_of_add_le,
      Nat.reduceMul, Nat.reduceSub, BitVec.extractLsb'_eq_self]

/-- R53, R167: byte `i` of word `j` is byte `4j + i` of the port `digest`. -/
theorem digestOf_byte (h : Words8) {i j : Nat} (hj : j < 8) (hi : i < 4) :
    (digestOf h).extractLsb' (248 - 8 * (4 * j + i)) 8 = h[j].extractLsb' (24 - 8 * i) 8 := by
  have hpos : 224 - 32 * j + (24 - 8 * i) = 248 - 8 * (4 * j + i) := by omega
  rw [← digestOf_word h hj, extractLsb'_extractLsb'_of_le _ _ _ (by omega), hpos]

/-- R53, R167: the Serializer's bytes, word after word, are those of the port `digest`. -/
theorem serialize_eq_digestBytes (h : Words8) : serialize h = digestBytes (digestOf h) := by
  rw [digestBytes, ← flatMap_range_rows (fun k => (digestOf h).extractLsb' (248 - 8 * k) 8) 8 4,
    ← List.map_coe_finRange_eq_range (n := 8), List.flatMap_map]
  exact List.flatMap_congr fun j _ => List.map_congr_left fun i hi => (digestOf_byte h j.isLt (List.mem_range.1 hi)).symm

/-- Settles O55: the port's bytes are a list over their numbers, 0 to 31. -/
theorem serializerReadsTheDigestPort : Obligations.SerializerReadsTheDigestPort := by
  refine fun h => ⟨?_, (serialize_eq_digestBytes h).symm, fun j i hj hi => ?_⟩
  · rw [serialize_eq_digestBytes, digestBytes, List.length_map, List.length_range]
  · rw [serialize_eq_digestBytes, digestBytes, List.getElem?_map, List.getElem?_range (show 4 * j + i < 32 by omega),
      Option.map_some, digestOf_byte h hj hi]

end Sys2Proof.Machine
end

section
/-! `HASH` (R168): its commands on an idle core, each taken without a wait, and the waits in a busy one. -/

namespace Sys2Proof.Machine

variable {s : State}

/-- R78: moves with which the host of a busy core does nothing but wait. -/
def WaitsWhileBusy (ms : List HostMove) : Prop :=
  ∀ dig, hostTurn false dig ms = .next ⟨Pins.quiet, ms, []⟩

theorem waitsWhileBusy_wait (r : List HostMove) : WaitsWhileBusy (.wait :: r) := fun _ => rfl

theorem waitsWhileBusy_digest (d : ResultName) (r : List HostMove) : WaitsWhileBusy (.digest d :: r) := fun _ => rfl

theorem waitsWhileBusy_hash {m : List Byte} (h : 8 * m.length < Config.messageBitLimit) (d : ResultName)
    (r : List HostMove) : WaitsWhileBusy (.hash m d :: r) := by
  obtain ⟨bs, hbs, -⟩ := blocksOf_ok h
  intro dig
  rw [hostTurn, hbs]
  rfl

/-- R168: each block of `HASH`, and the `DIGEST` after them, begins with a wait. -/
theorem waitsWhileBusy_hashMoves (bs : List BlockWords) (d : ResultName) : WaitsWhileBusy (hashMoves bs d) := by
  cases bs with
  | nil => exact waitsWhileBusy_digest d []
  | cons m bs => exact waitsWhileBusy_wait _

/-- R78: a host that waits keeps `rst` = 0 and its moves. -/
theorem WaitsWhileBusy.kept {ms : List HostMove} (hms : WaitsWhileBusy ms) : KeptWhileBusy (· = ms) := by
  rintro _ dig rfl
  exact ⟨_, hms dig, rfl, rfl⟩

/-- R78, R120: a host that waits samples nothing while micro-operations are left. -/
theorem WaitsWhileBusy.run_samples {ms : List HostMove} (hms : WaitsWhileBusy ms) (hreach : SeqReachable s.phase s.t)
    (hhost : s.host = ms) {k : Nat} (hk : k ≤ uopsLeft s.phase s.t) {u : State} (h : run k s = .next u) :
    u.samples = s.samples := by
  induction k generalizing s with
  | zero =>
    cases h
    rfl
  | succ k ih =>
    have hbusy : s.phase ≠ Phase.idle := by
      intro hp
      rw [hp, uopsLeft_idle] at hk
      omega
    have ht : hostTurn s.cmdReady s.digest s.host = .next ⟨Pins.quiet, ms, []⟩ := by
      rw [(State.cmdReady_false_iff s).2 hbusy, hhost]
      exact hms s.digest
    obtain ⟨w, hw, hwhost, hleft⟩ := step_of_busy hreach hbusy ht rfl
    rw [run_succ_of_step hw] at h
    have hwsamples : w.samples = s.samples := (step_host_of_turn ht hw).2.trans (List.append_nil _)
    exact (ih (step_seqReachable hw) hwhost (by omega) h).trans hwsamples

/-- R114, R120: the micro-operations left after the first `k` of a `COMPRESS`. -/
theorem CompressAt.uopsLeft_eq {hin : Words8} {m : BlockWords} {k : Nat} (h : CompressAt hin m k s) (hk : k ≤ 114) :
    uopsLeft s.phase s.t = 114 - k := by
  cases h with
  | expand hk' hp _ _ => rw [hp, uopsLeft_expand]; omega
  | winit hk' hp _ _ _ => rw [hp, uopsLeft_winit]; omega
  | round hk' hp _ _ _ => rw [hp, uopsLeft_round]; omega
  | acc hk' hp _ _ _ => rw [hp, uopsLeft_acc]; omega
  | done hk' hi _ => rw [hi.1, uopsLeft_idle]; omega

/-- R78: `WAIT` on an idle core takes no edge of its own. -/
theorem step_wait_of_idle {r : List HostMove} (hi : s.Idle) (hhost : s.host = .wait :: r) :
    step s = step (s.setHost r) := by
  refine step_setHost ?_
  rw [hhost, (State.cmdReady_iff s).2 hi.1]
  rfl

/-- R112, R168: one block of `HASH`, from an idle core to an idle core. -/
theorem run_wait_compress {m : BlockWords} {r : List HostMove} (hi : s.Idle)
    (hhost : s.host = .wait :: .offer (compressWord m) :: r) (hr : WaitsWhileBusy r) :
    ∃ u, run 115 s = .next u ∧ u.Idle ∧ u.host = r ∧ u.H = compress s.H m ∧ u.samples = s.samples := by
  obtain ⟨a, ha, hat, hahost, hasamples⟩ := step_accepts_compress (s := s.setHost (.offer (compressWord m) :: r)) hi
    (hostTurn_offer_of_idle hi rfl) rfl rfl (cmdOpOf_cmdWord 1 _)
  rw [show (Pins.offering (compressWord m)).cmdBlock = packBlock m from cmdBlockOf_cmdWord 1 _,
    blockWords_packBlock] at hat
  obtain ⟨u, hu, huat, huhost⟩ := hat.run_busy hr.kept hahost (j := 114) (by omega)
  obtain ⟨hidle, hH⟩ := huat.idle (Nat.le_refl 114)
  have husamples := hr.run_samples (step_seqReachable ha) hahost (hat.uopsLeft_eq (Nat.zero_le 114)).ge hu
  exact ⟨u, (run_succ_of_step ((step_wait_of_idle hi hhost).trans ha) 114).trans hu, hidle, huhost, hH,
    husamples.trans (hasamples.trans (List.append_nil _))⟩

/-- R119, R168: the blocks of `HASH`, one after another, 115 edges each. -/
theorem run_hashMoves {bs : List BlockWords} {d : ResultName} (hi : s.Idle) (hhost : s.host = hashMoves bs d) :
    ∃ u, run (115 * bs.length) s = .next u ∧ u.Idle ∧ u.host = [.digest d] ∧ u.H = bs.foldl compress s.H ∧
      u.samples = s.samples := by
  induction bs generalizing s with
  | nil => exact ⟨s, rfl, hi, hhost, rfl, rfl⟩
  | cons m bs ih =>
    obtain ⟨a, ha, haidle, hahost, hH, hasamples⟩ := run_wait_compress hi hhost (waitsWhileBusy_hashMoves bs d)
    obtain ⟨u, hu, huidle, huhost, huH, husamples⟩ := ih haidle hahost
    refine ⟨u, ?_, huidle, huhost, by rw [huH, hH, List.foldl_cons], husamples.trans hasamples⟩
    rw [List.length_cons, Nat.mul_succ, Nat.add_comm]
    exact (run_add ha _).trans hu

/-- R168 step (2): an idle core accepts the `INIT` of `HASH`. -/
theorem step_hash_of_idle {m : List Byte} {bs : List BlockWords} {d : ResultName} (hi : s.Idle)
    (hhost : s.host = [.hash m d]) (hbs : blocksOf m = .next bs) :
    step s = .next (s.setHost (hashMoves bs d)).resetEdge := by
  have hturn : hostTurn s.cmdReady s.digest s.host =
      hostTurn s.cmdReady s.digest (.offer initWord :: hashMoves bs d) := by
    rw [hhost, (State.cmdReady_iff s).2 hi.1]
    simp only [hostTurn, hbs, List.append_nil, if_true]
  rw [step_setHost hturn]
  exact step_accepts_init (s := s.setHost _) hi rfl (cmdOpOf_cmdWord 0 0)

/-- R78, R168 step (4): the last edge of `HASH` samples the port and leaves the core idle. -/
theorem step_last_digest {d : ResultName} (hi : s.Idle) (hhost : s.host = [.digest d]) :
    step s = .next ((s.setHost []).addSamples [⟨d, true, s.digest⟩]) := by
  rw [step_digest_of_idle hhost hi.1, step_of_turn (turn := ⟨Pins.quiet, [], []⟩) rfl, afterTurn_no_samples]
  exact edge_idle _ _ rfl hi rfl

/-- R168: the pure function on a message that has blocks. -/
theorem hashMessage_of_blocksOf {m : List Byte} {bs : List BlockWords} (h : blocksOf m = .next bs) :
    hashMessage m = .next (serialize (bs.foldl compress IV)) := by
  rw [hashMessage, h]
  rfl

/-- Settles O57: the wait (`a`), the `INIT`, the blocks (`b`), the sample. -/
theorem hashSamplesTheMessageDigest : Obligations.HashSamplesTheMessageDigest := by
  intro s m d hreach hhost hlimit
  obtain ⟨bs, hbs, hsegment, hlen⟩ := blocksOf_ok hlimit
  have hwaits := waitsWhileBusy_hash hlimit d []
  obtain ⟨a, ha, haidle, hahost⟩ := run_to_idle hwaits.kept hreach hhost
  have hasamples := hwaits.run_samples hreach hhost (Nat.le_refl _) ha
  have hinit := step_hash_of_idle haidle hahost hbs
  obtain ⟨b, hb, hbidle, hbhost, hH, hbsamples⟩ := run_hashMoves (s := (a.setHost (hashMoves bs d)).resetEdge)
    ⟨rfl, rfl⟩ rfl
  have hrun : run (1 + 115 * bs.length + 1) a = .next ((b.setHost []).addSamples [⟨d, true, b.digest⟩]) :=
    (run_add ((run_add (run_succ_of_step hinit 0) _).trans hb) 1).trans
      (run_succ_of_step (step_last_digest hbidle hbhost) 0)
  have hbytes : digestBytes b.digest = serialize (bs.foldl compress IV) := by
    rw [State.digest, ← serialize_eq_digestBytes, hH]
    rfl
  refine ⟨padBytes m, bs, uopsLeft s.phase s.t, _, pad_eq_some hlimit, hsegment, hlen, uopsLeft_le hreach,
    fun hp => ?_, (run_add ha _).trans hrun, rfl, hbidle.1, hbidle.2, b.digest, ?_, hbytes, ?_⟩
  · rw [hp]
    rfl
  · rw [State.addSamples_samples, State.setHost_samples, hbsamples]
    exact congrArg (· ++ _) hasamples
  · rw [hbytes, hashMessage_of_blocksOf hbs]

end Sys2Proof.Machine
end

section
/-! Why a step can stop, and why a run from a state with the invariant does not (spec/60_exceptions.md R180, R193). -/

namespace Sys2Proof.Machine

/-- R193: every outcome of a step, from any state: it goes on, or it is refused for one of two reasons. -/
theorem step_outcomes (s : State) :
    (∃ u, step s = .next u) ∨
    (step s = .refused (.unreachableSequencerWord (s.phase ++ s.t)) ∧ ¬SeqReachable s.phase s.t) ∨
    (step s = .refused .messageTooLong ∧ ∃ m d, HostMove.hash m d ∈ s.host ∧ 2 ^ 64 ≤ 8 * m.length) := by
  cases ht : hostTurn s.cmdReady s.digest s.host with
  | fault f => exact absurd ht (hostTurn_not_fault _ _ _ f)
  | refused e =>
    obtain ⟨rfl, m, d, hmem, hlong⟩ := hostTurn_refused _ _ ht
    exact .inr (.inr ⟨step_of_refused_turn ht, m, d, hmem, Nat.le_of_not_lt hlong⟩)
  | next turn =>
    by_cases hgo : turn.pins.rst = true ∨ SeqReachable s.phase s.t
    · obtain ⟨-, u, hu, -⟩ := sequencerFollowsItsTable s turn ht hgo _ rfl
      exact .inl ⟨u, hu⟩
    · obtain ⟨hr, hreach⟩ := not_or.1 hgo
      exact .inr (.inl ⟨unreachableWordIsRefused s turn ht (Bool.eq_false_of_not_eq_true hr) hreach, hreach⟩)

/-- R28, R170: the invariant rules out both reasons for a refusal. -/
theorem State.Inv.step_next {s : State} (hinv : s.Inv) : ∃ u, step s = .next u := by
  obtain ⟨hreach, hlimit⟩ := hinv
  rcases step_outcomes s with hnext | ⟨-, hunreach⟩ | ⟨-, m, d, hmem, hlong⟩
  · exact hnext
  · exact absurd hreach hunreach
  · exact absurd (of_decide_eq_true (hlimit _ hmem)) (Nat.not_lt.2 hlong)

/-- Settles O40: each step goes on, and keeps the invariant for the steps after it. -/
theorem runsNeverStop : Obligations.RunsNeverStop := by
  intro s hinv k
  induction k generalizing s with
  | zero => exact ⟨s, rfl, hinv⟩
  | succ k ih =>
    obtain ⟨w, hw⟩ := hinv.step_next
    rw [run_succ_of_step hw]
    exact ih w (stepKeepsInvariant s w hinv hw)

/-- Settles O38: no outcome of a step is a fault. -/
theorem noStepFaults : Obligations.NoStepFaults := by
  intro s f h
  rcases step_outcomes s with ⟨u, hu⟩ | ⟨hstop, -⟩ | ⟨hstop, -⟩
  · cases hu.symm.trans h
  · cases hstop.symm.trans h
  · cases hstop.symm.trans h

/-- Settles O39. -/
theorem stepRefusesOnlyWithoutMeaning : Obligations.StepRefusesOnlyWithoutMeaning := by
  intro s e h
  rcases step_outcomes s with ⟨u, hu⟩ | ⟨hstop, hunreach⟩ | ⟨hstop, hmessage⟩
  · cases hu.symm.trans h
  · cases hstop.symm.trans h
    exact .inl ⟨rfl, hunreach⟩
  · cases hstop.symm.trans h
    exact .inr ⟨rfl, hmessage⟩

end Sys2Proof.Machine
end

section
/-! Reset (R200, R201), and the data words that the control does not look at (R212). -/

namespace Sys2Proof.Machine

/-- R200: a step at which the host drives `rst` = 1, in any state. -/
theorem step_of_rst {s : State} {p : Pins} {r : List HostMove}
    (ht : hostTurn s.cmdReady s.digest s.host = .next ⟨p, r, []⟩) (hr : p.rst = true) :
    step s = .next (s.setHost r).resetEdge := by
  rw [step_of_turn ht, afterTurn_no_samples, edge_reset _ p hr]

/-- R78, R200: the move `RESET`. -/
theorem step_reset_move {s : State} {r : List HostMove} (hhost : s.host = .reset :: r) :
    step s = .next (s.setHost r).resetEdge :=
  step_of_rst (p := Pins.reset) (by rw [hhost]; rfl) rfl

/-- Settles O21: whatever the move, the host drives `rst` = 1, and CORE looks at nothing else. -/
theorem resetEdgeFromAnyState : Obligations.ResetEdgeFromAnyState := by
  rintro s p r hr (hhost | hhost)
  · exact step_of_rst (p := p) (by rw [hhost]; rfl) hr
  · exact step_reset_move hhost

/-- Settles O23: after the reset edge the two states are idle and differ in `W` and `a` to `h` at most, which never show
(O47). -/
theorem resetForgetsEverything : Obligations.ResetForgetsEverything := by
  intro s u r hs hu hsamples k hk
  obtain ⟨j, rfl⟩ := Nat.exists_eq_add_of_le' hk
  rw [run_succ_of_step (step_reset_move hs), run_succ_of_step (step_reset_move hu)]
  exact idleLeftoversNeverShow (s.setHost r).resetEdge (u.setHost r).resetEdge rfl ⟨rfl, rfl, rfl, rfl, hsamples⟩ j

/-! The host's turn without its data words: it is the turn of the host whose moves have none. -/

/-- R212: the inputs without the block bits. -/
def Pins.eraseData (p : Pins) : Pins := { p with cmdBlock := 0 }

/-- R212: a turn without its data words and without what it sampled. -/
def Turn.eraseData (x : Turn) : Turn where
  pins := x.pins.eraseData
  rest := x.rest.map HostMove.eraseData
  samples := []

/-- Turns that differ in data at most: what the sequencer and the host after them still look at is the same. -/
theorem Turn.eraseData_eq_iff {x y : Turn} : y.eraseData = x.eraseData ↔
    y.pins.rst = x.pins.rst ∧ y.pins.cmdValid = x.pins.cmdValid ∧ y.pins.cmdOp = x.pins.cmdOp ∧
      y.rest.map HostMove.eraseData = x.rest.map HostMove.eraseData := by
  simp [Turn.eraseData, Pins.eraseData, and_assoc]

/-- The same for whatever the host's turn answers; why it stops is no data. -/
def eraseTurn : Host.Outcome Turn Fault Refusal → Host.Outcome Turn Fault Refusal
  | .next turn => .next turn.eraseData
  | .fault f => .fault f
  | .refused e => .refused e

@[simp] theorem eraseTurn_next (turn : Turn) : eraseTurn (.next turn) = .next turn.eraseData := rfl

@[simp] theorem eraseTurn_refused (e : Refusal) : eraseTurn (.refused e) = .refused e := rfl

@[simp] theorem eraseTurn_afterSample (x : Sample) (o : Host.Outcome Turn Fault Refusal) :
    eraseTurn (afterSample x o) = eraseTurn o := by
  cases o <;> rfl

theorem eraseTurn_eq_next {o : Host.Outcome Turn Fault Refusal} {x : Turn} (h : eraseTurn o = .next x) :
    ∃ turn, o = .next turn ∧ turn.eraseData = x := by
  cases o with
  | next turn => exact ⟨turn, rfl, Host.Outcome.next.inj h⟩
  | fault f => cases h
  | refused e => cases h

theorem eraseTurn_eq_refused {o : Host.Outcome Turn Fault Refusal} {e : Refusal} (h : eraseTurn o = .refused e) :
    o = .refused e := by
  cases o with
  | next turn => cases h
  | fault f => cases h
  | refused e' => exact h

@[simp] theorem HostMove.eraseData_eraseData (m : HostMove) : m.eraseData.eraseData = m.eraseData := by
  cases m with
  | offer w => simp [HostMove.eraseData]
  | hash msg d => simp [HostMove.eraseData]
  | _ => rfl

theorem map_eraseData_map_eraseData (ms : List HostMove) :
    (ms.map HostMove.eraseData).map HostMove.eraseData = ms.map HostMove.eraseData := by
  simp

/-- A turn in which the moves left have lost their data. -/
theorem eraseTurn_map_rest {p q : Pins} (hpins : q.eraseData = p.eraseData) (ms : List HostMove) :
    eraseTurn (.next ⟨q, ms.map HostMove.eraseData, []⟩) = eraseTurn (.next ⟨p, ms, []⟩) := by
  simp [Turn.eraseData, hpins]

/-- R71: of a command word on offer only `op` is no data. -/
theorem Pins.eraseData_offering (w : CmdWord) :
    (Pins.offering (cmdWord (cmdOpOf w) 0)).eraseData = (Pins.offering w).eraseData := by
  simp [Pins.eraseData, Pins.offering]

/-- R168: of the blocks of a `HASH` only their number is no data. -/
theorem hashMoves_map_eraseData (bs : List BlockWords) (d : ResultName) :
    (hashMoves bs d).map HostMove.eraseData =
      (List.replicate bs.length [.wait, .offer (cmdWord 1 0)]).flatten ++ [.digest []] := by
  have hblock : ∀ b, HostMove.eraseData (.offer (compressWord b)) = .offer (cmdWord 1 0) := fun b =>
    congrArg (fun op => HostMove.offer (cmdWord op 0)) (cmdOpOf_cmdWord 1 (packBlock b))
  induction bs with
  | nil => rfl
  | cons b bs ih =>
    rw [List.length_cons, List.replicate_succ, List.flatten_cons, List.append_assoc, ← ih, ← hblock b]
    rfl

/-- R163, R168: the number of a message's blocks is determined by its length. -/
theorem hostTurn_hash_eraseData (ready : Bool) (dig dig' : Digest) {m m' : List Byte} (d d' : ResultName)
    {r r' : List HostMove} (hm : m.length = m'.length)
    (hr : r.map HostMove.eraseData = r'.map HostMove.eraseData) :
    eraseTurn (hostTurn ready dig (.hash m d :: r)) = eraseTurn (hostTurn ready dig' (.hash m' d' :: r')) := by
  by_cases hl : 8 * m.length < Config.messageBitLimit
  · obtain ⟨bs, hbs, -, hlen⟩ := blocksOf_ok hl
    obtain ⟨bs', hbs', -, hlen'⟩ := blocksOf_ok (hm ▸ hl)
    have hn : bs.length = bs'.length := by rw [hlen, hlen', hm]
    cases ready with
    | true => simp [hostTurn, hbs, hbs', Turn.eraseData, hashMoves_map_eraseData, hn, hr]
    | false => simp [hostTurn, hbs, hbs', Turn.eraseData, HostMove.eraseData, hm, hr]
  · simp only [hostTurn, blocksOf_tooLong hl, blocksOf_tooLong (hm ▸ hl), eraseTurn_refused]

/-- R212: a host whose moves have no data words has the same turn without its data words, whatever the port `digest`
shows. -/
theorem hostTurn_map_eraseData (ready : Bool) (dig dig' : Digest) (ms : List HostMove) :
    eraseTurn (hostTurn ready dig' (ms.map HostMove.eraseData)) = eraseTurn (hostTurn ready dig ms) := by
  induction ms with
  | nil => rfl
  | cons m r ih =>
    rw [List.map_cons]
    cases m with
    | drive p => exact eraseTurn_map_rest rfl r
    | reset => exact eraseTurn_map_rest rfl r
    | offer w =>
      cases ready with
      | true => exact eraseTurn_map_rest (Pins.eraseData_offering w) r
      | false => exact eraseTurn_map_rest (Pins.eraseData_offering w) (.offer w :: r)
    | wait =>
      cases ready with
      | true => exact ih
      | false => exact eraseTurn_map_rest rfl (.wait :: r)
    | digest d =>
      cases ready with
      | true => exact (eraseTurn_afterSample _ _).trans (ih.trans (eraseTurn_afterSample _ _).symm)
      | false => exact eraseTurn_map_rest rfl (.digest d :: r)
    | sample d => exact (eraseTurn_afterSample _ _).trans (ih.trans (eraseTurn_afterSample _ _).symm)
    | hash msg d =>
      exact hostTurn_hash_eraseData ready dig' dig [] d List.length_replicate (map_eraseData_map_eraseData r)

/-- R212: hosts whose moves differ in data at most have turns that differ in data at most. -/
theorem eraseTurn_hostTurn_congr (ready : Bool) (dig dig' : Digest) {ms ms' : List HostMove}
    (h : ms.map HostMove.eraseData = ms'.map HostMove.eraseData) :
    eraseTurn (hostTurn ready dig ms) = eraseTurn (hostTurn ready dig' ms') := by
  rw [← hostTurn_map_eraseData ready dig 0 ms, h, hostTurn_map_eraseData ready dig' 0 ms']

/-! One step, on the sequencer's table (O27). -/

/-- R116: the sequencer's table reads `rst`, `cmd_valid`, `cmd_op`, `phase` and `t`, none of them data; an unreachable word
stops both. -/
theorem step_sameControl (s u : State) (h : SameControl s u) : OutcomesAgree SameControl (step s) (step u) := by
  obtain ⟨hphase, ht, hhost⟩ := h
  have hready : u.cmdReady = s.cmdReady := by rw [State.cmdReady, State.cmdReady, hphase]
  have hturns : eraseTurn (hostTurn u.cmdReady u.digest u.host) = eraseTurn (hostTurn s.cmdReady s.digest s.host) := by
    rw [hready]
    exact eraseTurn_hostTurn_congr s.cmdReady u.digest s.digest hhost.symm
  cases hs : hostTurn s.cmdReady s.digest s.host with
  | fault f => exact absurd hs (hostTurn_not_fault _ _ _ f)
  | refused e =>
    rw [hs, eraseTurn_refused] at hturns
    rw [step_of_refused_turn hs, step_of_refused_turn (eraseTurn_eq_refused hturns)]
    exact rfl
  | next x =>
    rw [hs, eraseTurn_next] at hturns
    obtain ⟨y, hu, hxy⟩ := eraseTurn_eq_next hturns
    obtain ⟨hrst, hvalid, hop, hrest⟩ := Turn.eraseData_eq_iff.1 hxy
    by_cases hgo : x.pins.rst = true ∨ SeqReachable s.phase s.t
    · obtain ⟨-, a, ha, haword⟩ := sequencerFollowsItsTable s x hs hgo _ rfl
      obtain ⟨-, b, hb, hbword⟩ := sequencerFollowsItsTable u y hu (hrst ▸ hphase ▸ ht ▸ hgo) _ rfl
      rw [hrst, hvalid, hop, ← hphase, ← ht, ← haword] at hbword
      obtain ⟨hbphase, hbt⟩ := Prod.mk.inj hbword
      rw [ha, hb]
      refine ⟨hbphase.symm, hbt.symm, ?_⟩
      rw [(step_host_of_turn hs ha).1, (step_host_of_turn hu hb).1, hrest]
    · obtain ⟨hnot, hreach⟩ := not_or.1 hgo
      have hr : x.pins.rst = false := Bool.eq_false_of_not_eq_true hnot
      rw [unreachableWordIsRefused s x hs hr hreach,
        unreachableWordIsRefused u y hu (hrst.trans hr) (hphase ▸ ht ▸ hreach), hphase, ht]
      exact rfl

/-- Settles O32. -/
theorem controlIgnoresData : Obligations.ControlIgnoresData :=
  fun _ _ h k => run_agree step_sameControl k h

end Sys2Proof.Machine
end
